-- ==== Sys2Proof/Word.lean ====
section
/-! DEFINITION. The word types of the WSFC (00_scope.md R14, R15). Lengths and offsets are exact integers and are held as `Nat`. -/

namespace Sys2Proof

/-- An 8-bit unsigned value, bit 7 most significant (00_scope.md R15). -/
abbrev Byte := BitVec 8

/-- A 32-bit digest word; `+` on it is the spec's addition modulo 2^32 (00_scope.md R14, R15). -/
abbrev Word32 := BitVec 32

/-- A byte sequence; element 0 is the first byte on the wire (00_scope.md R15). -/
abbrev Bytes := List Byte

end Sys2Proof
end

