-- ==== Sys2Proof/Config.lean ====
section
/-! DEFINITION. The implementation parameters of the block (00_scope.md R13, 10_state.md R40). `N_SESSIONS` is the number of contexts the state holds (notes/assumptions/1.md). -/

namespace Sys2Proof

/-- A buffer capacity: a number of bytes, or the spec's `∞` (00_scope.md R13). -/
inductive Cap where
  | bytes (n : Nat)
  | unbounded
  deriving DecidableEq, Repr

/-- Which legacy value the overflow check bounds (00_scope.md R13, 44_legacy_token.md R194). -/
inductive KeyBound where
  | quotient
  | parsed
  deriving DecidableEq, Repr

/-- The parameters of a build (00_scope.md R13). A step reads them and never writes them. -/
structure Config where
  /-- `MAX_OPERAND`: the largest length of a used operand. -/
  maxOperand : Nat
  /-- `PEND_CAP`: the capacity of one context's pending buffer. -/
  pendCap : Cap
  /-- `ACC_CAP`: the capacity of one context's message accumulator. -/
  accCap : Cap
  /-- `KEY_BOUND`. -/
  keyBound : KeyBound
  deriving DecidableEq, Repr

/-- The default parameters of 95_test_vectors.md, `N_SESSIONS` apart (notes/assumptions/2.md). DESIGN CHOICE, unsafe. -/
def Config.default : Config where
  maxOperand := 2 ^ 64 - 1
  pendCap := .unbounded
  accCap := .unbounded
  keyBound := .quotient

/-- The default `N_SESSIONS` of 95_test_vectors.md (notes/assumptions/2.md). DESIGN CHOICE, unsafe. -/
def Config.defaultSessions : Nat := 4

/-- The legal parameter values of 00_scope.md R13. -/
def Config.legal (c : Config) : Bool :=
  decide (14 ≤ c.maxOperand) && decide (c.maxOperand ≤ 2 ^ 64 - 1) &&
    (match c.pendCap with
     | .bytes n => decide (14 ≤ n)
     | .unbounded => true)

end Sys2Proof
end

