-- ==== Sys2Proof/Syntax.lean ====
section
/-! DEFINITION. The commands of the WSFC: one constructor per row of spec/opcode_table.json (30_encoding.md R70). -/

namespace Sys2Proof

/-- A command as its 16-bit word gives it: `OP` selects the constructor, `SID` (bits 15:8) is carried by every one,
since a word of any family may hold any `SID` (30_encoding.md R70, R73; notes/assumptions/10.md). The operand buffers
are registers of the state (10_state.md R24). -/
inductive Instr where
  /-- HDR_DECODE, OP 0x01 (40_frame_decode.md R101). -/
  | hdrDecode (sid : BitVec 8)
  /-- FRAME_DECODE, OP 0x02 (40_frame_decode.md R108). -/
  | frameDecode (sid : BitVec 8)
  /-- UNMASK, OP 0x03 (41_unmask.md R130). -/
  | unmask (sid : BitVec 8)
  /-- SESSION_OPEN, OP 0x10 (42_session.md R140). -/
  | sessionOpen (sid : BitVec 8)
  /-- SESSION_FEED, OP 0x11 (42_session.md R141). -/
  | sessionFeed (sid : BitVec 8)
  /-- SESSION_CLOSE, OP 0x12 (42_session.md R157). -/
  | sessionClose (sid : BitVec 8)
  /-- SESSION_QUERY, OP 0x13 (42_session.md R158). -/
  | sessionQuery (sid : BitVec 8)
  /-- ENCODE_TEXT, OP 0x20 (43_encode.md R180). -/
  | encodeText (sid : BitVec 8)
  /-- KEY_REDUCE, OP 0x30 (44_legacy_token.md R195). -/
  | keyReduce (sid : BitVec 8)
  /-- LEGACY_TOKEN, OP 0x31 (44_legacy_token.md R196). -/
  | legacyToken (sid : BitVec 8)
  /-- ACCEPT_KEY, OP 0x40 (45_accept_key.md R220). -/
  | acceptKey (sid : BitVec 8)
  deriving DecidableEq, Repr

/-- The `SID` field of the command word (10_state.md R23). -/
def Instr.sid : Instr → BitVec 8
  | .hdrDecode sid => sid
  | .frameDecode sid => sid
  | .unmask sid => sid
  | .sessionOpen sid => sid
  | .sessionFeed sid => sid
  | .sessionClose sid => sid
  | .sessionQuery sid => sid
  | .encodeText sid => sid
  | .keyReduce sid => sid
  | .legacyToken sid => sid
  | .acceptKey sid => sid

/-- The four session commands, OP 0x10 to 0x13 (30_encoding.md R73). -/
def Instr.isSession : Instr → Bool
  | .hdrDecode _ => false
  | .frameDecode _ => false
  | .unmask _ => false
  | .sessionOpen _ => true
  | .sessionFeed _ => true
  | .sessionClose _ => true
  | .sessionQuery _ => true
  | .encodeText _ => false
  | .keyReduce _ => false
  | .legacyToken _ => false
  | .acceptKey _ => false

end Sys2Proof
end

