-- ==== Sys2Proof/WellFormed.lean ====
section
/-! DEFINITION. Well-formed commands (30_encoding.md R73). -/

namespace Sys2Proof

/-- A command's `SID` is legal on a block of `nSessions` contexts: 0 for a command that is no session command, and below
`N_SESSIONS` for a session command (30_encoding.md R73). A word that breaks this decodes all the same and raises
`E_BAD_OPERAND` with `INFO = 0` when it runs (60_exceptions.md R254). -/
def Instr.wellFormed (nSessions : Nat) (i : Instr) : Bool :=
  if i.isSession then decide (i.sid.toNat < nSessions) else decide (i.sid = 0)

end Sys2Proof
end

