-- ==== Sys2Proof/Decode.lean ====
section
/-! DEFINITION. The command decoder and encoder (30_encoding.md R70, R71, R72). -/

namespace Sys2Proof

/-- Why a command word is no command. -/
inductive DecodeError where
  /-- A reserved `OP` (30_encoding.md R72); the machine then raises `E_ILLEGAL_COMMAND` (60_exceptions.md R253). -/
  | reservedOp (op : BitVec 8)
  deriving DecidableEq, Repr

/-- `CMD[7:0]` (10_state.md R23). -/
def opField (w : BitVec 16) : BitVec 8 := w.extractLsb' 0 8

/-- `CMD[15:8]` (10_state.md R23). -/
def sidField (w : BitVec 16) : BitVec 8 := w.extractLsb' 8 8

/-- The command of a command word: all 8 bits of `OP` are matched (30_encoding.md R70, R71), every `OP` outside the table
is reserved (R72), and no value of `SID` is refused here (R73). -/
def decode (w : BitVec 16) : Except DecodeError Instr :=
  let op := opField w
  let sid := sidField w
  if op = 0x01#8 then .ok (.hdrDecode sid)
  else if op = 0x02#8 then .ok (.frameDecode sid)
  else if op = 0x03#8 then .ok (.unmask sid)
  else if op = 0x10#8 then .ok (.sessionOpen sid)
  else if op = 0x11#8 then .ok (.sessionFeed sid)
  else if op = 0x12#8 then .ok (.sessionClose sid)
  else if op = 0x13#8 then .ok (.sessionQuery sid)
  else if op = 0x20#8 then .ok (.encodeText sid)
  else if op = 0x30#8 then .ok (.keyReduce sid)
  else if op = 0x31#8 then .ok (.legacyToken sid)
  else if op = 0x40#8 then .ok (.acceptKey sid)
  else .error (.reservedOp op)

/-- The `OP` of a command (30_encoding.md R70). -/
def opcode : Instr → BitVec 8
  | .hdrDecode _ => 0x01#8
  | .frameDecode _ => 0x02#8
  | .unmask _ => 0x03#8
  | .sessionOpen _ => 0x10#8
  | .sessionFeed _ => 0x11#8
  | .sessionClose _ => 0x12#8
  | .sessionQuery _ => 0x13#8
  | .encodeText _ => 0x20#8
  | .keyReduce _ => 0x30#8
  | .legacyToken _ => 0x31#8
  | .acceptKey _ => 0x40#8

/-- The command word `SID·256 + OP` (30_encoding.md R70, R87). -/
def encode (i : Instr) : BitVec 16 := i.sid ++ opcode i

/-- The decoder on a word numbered as spec/opcode_table.json numbers it: one 16-bit command word, bit 0 the least
significant; bits at and above `nbits` are 0. -/
def decodeTableWord (nbits w : Nat) : Option Instr :=
  match decode (BitVec.ofNat 16 (w % 2 ^ nbits)) with
  | .ok i => some i
  | .error _ => none

end Sys2Proof
end

