-- ==== Sys2Proof/Machine/State.lean ====
section
/-! DEFINITION. The architectural state (10_state.md), its reset, and the reasons a step can stop. -/

namespace Sys2Proof.Machine

/-- The session state `CTX_STATE` (10_state.md R31). The value 3 is never held, so there is no constructor for it
(notes/assumptions/7.md). -/
inductive CtxState where
  | idle
  | opened
  | faulted
  deriving DecidableEq, Repr

/-- The 2-bit encoding of `CTX_STATE` (10_state.md R31). -/
def CtxState.code : CtxState → BitVec 2
  | .idle => 0#2
  | .opened => 1#2
  | .faulted => 2#2

/-- The protocol variant `CTX_VARIANT` (10_state.md R32). -/
inductive Variant where
  | modern
  | legacy
  deriving DecidableEq, Repr

/-- The 1-bit encoding of `CTX_VARIANT` (10_state.md R32). -/
def Variant.code : Variant → BitVec 1
  | .modern => 0#1
  | .legacy => 1#1

/-- One session context (10_state.md R30). -/
structure Ctx where
  /-- `CTX_STATE` -/
  state : CtxState
  /-- `CTX_VARIANT` -/
  variant : Variant
  /-- `CTX_FAULT`: the status that faulted the context, else 0 (R33). -/
  fault : BitVec 8
  /-- `PEND`: bytes received but not yet forming a complete frame (R34). -/
  pend : Bytes
  /-- `ACC`: payload of the message being assembled (R35). -/
  acc : Bytes
  deriving DecidableEq, Repr

/-- The context after reset and after SESSION_CLOSE (10_state.md R39, 42_session.md R157). -/
def Ctx.idle : Ctx where
  state := .idle
  variant := .modern
  fault := 0#8
  pend := []
  acc := []

/-- The result record `RESULT` (10_state.md R26, R27). `INFO` and the two query lengths are exact integers
(00_scope.md R14; notes/assumptions/8.md). -/
structure Result where
  /-- `STATUS` -/
  status : BitVec 8
  /-- `INFO` -/
  info : Nat
  /-- `H_FIN` -/
  hFin : BitVec 1
  /-- `H_RSV` -/
  hRsv : BitVec 3
  /-- `H_OPC` -/
  hOpc : BitVec 4
  /-- `H_MASK` -/
  hMask : BitVec 1
  /-- `H_PLEN` -/
  hPlen : BitVec 64
  /-- `H_HLEN` -/
  hHlen : BitVec 4
  /-- `H_KEY` -/
  hKey : Bytes
  /-- `OUT` -/
  out : Bytes
  /-- `REM` -/
  rem : Bytes
  /-- `VAL` -/
  val : BitVec 32
  /-- `MSGS` -/
  msgs : List Bytes
  /-- `Q_STATE` -/
  qState : BitVec 2
  /-- `Q_VARIANT` -/
  qVariant : BitVec 1
  /-- `Q_FAULT` -/
  qFault : BitVec 8
  /-- `Q_PLEN` -/
  qPlen : Nat
  /-- `Q_ALEN` -/
  qAlen : Nat
  deriving DecidableEq, Repr

/-- Every field at its null value: 0 or empty (10_state.md R26). -/
def Result.null : Result where
  status := 0#8
  info := 0
  hFin := 0#1
  hRsv := 0#3
  hOpc := 0#4
  hMask := 0#1
  hPlen := 0#64
  hHlen := 0#4
  hKey := []
  out := []
  rem := []
  val := 0#32
  msgs := []
  qState := 0#2
  qVariant := 0#1
  qFault := 0#8
  qPlen := 0
  qAlen := 0

/-- What the host presents to start one command: the word of `CMD` and the three operands (00_scope.md R17). -/
structure Command where
  cmd : BitVec 16
  opA : Bytes
  opB : Bytes
  opC : Bytes
  deriving DecidableEq, Repr

/-- One thing the host does to the block (00_scope.md R11): it issues a command, or it resets the block between commands
(70_reset_and_hazards.md R280, R281). -/
inductive HostAction where
  | issue (c : Command)
  | reset
  deriving DecidableEq, Repr

/-- The state of the block (10_state.md R20), the parameters of the build (00_scope.md R13; notes/assumptions/1.md), and the
host's next actions (10_state.md R22; notes/assumptions/5.md). The GUID ROM is the constant `guid`. -/
structure State where
  /-- The parameters; no step changes them. The model's own field. -/
  cfg : Config
  /-- `CMD` (R23) -/
  cmd : BitVec 16
  /-- `OPA` (R24) -/
  opA : Bytes
  /-- `OPB` (R24) -/
  opB : Bytes
  /-- `OPC` (R24) -/
  opC : Bytes
  /-- `RESULT` (R26) -/
  result : Result
  /-- A command has completed since reset, so `RESULT` has a value (R39). The model's own field. -/
  resultValid : Bool
  /-- `CTX[0..N_SESSIONS-1]` (R30); its length is `N_SESSIONS` and no step changes it. -/
  ctxs : List Ctx
  /-- What the host does next, oldest first. The model's own field. -/
  pending : List HostAction
  deriving DecidableEq, Repr

/-- The block after a reset of a build with these parameters (10_state.md R39, 70_reset_and_hazards.md R280). `CMD`, the
operands and `RESULT` are unspecified there; the values are the model's (notes/assumptions/3.md, notes/assumptions/4.md). -/
def State.resetOf (nSessions : Nat) (cfg : Config) (pending : List HostAction) : State where
  cfg := cfg
  cmd := 0#16
  opA := []
  opB := []
  opC := []
  result := Result.null
  resultValid := false
  ctxs := List.replicate nSessions Ctx.idle
  pending := pending

/-- The block right after reset, waiting for the host's first command (70_reset_and_hazards.md R282), with the default
parameters (notes/assumptions/2.md). -/
def State.reset : State := State.resetOf Config.defaultSessions Config.default []

/-- Why the machine stops with a fault. No rule of the spec lets one happen; the spec asks for the first by name. -/
inductive Fault where
  /-- A `MemRead` past the end of a buffer: 'a model must treat one as a fault' (00_scope.md R16, 93 I19). Raised by
  `memRead` alone. Safe: the machine stops where the spec says no rule reads; unreachable. -/
  | readPastEnd
  /-- SESSION_FEED's loop made more passes than 42_session.md R148 allows. Raised by `feedLoop` alone. Safe: the machine
  stops where the spec says the loop has ended; unreachable. -/
  | feedLoopBound
  deriving DecidableEq, Repr

/-- Why the model gives an instruction no meaning. -/
inductive Refusal where
  /-- The command has no meaning in the model yet. Raised by no arm. Safe: nothing runs. -/
  | notModelled (mnemonic : String)
  deriving DecidableEq, Repr

end Sys2Proof.Machine
end

