-- ==== Sys2Proof/Machine/Ops.lean ====
section
/-! DEFINITION. The shared operations: bounded reads of a buffer, byte order, the session context file, ending a command, and raising a status (00_scope.md R15, R16; 60_exceptions.md R258). -/

namespace Sys2Proof.Machine

/-- `MemRead(B, off, n)`: the bytes `B[off:off+n)`, defined only when `off + n ≤ |B|` (00_scope.md R16). -/
def memRead (b : Bytes) (off n : Nat) : Except Fault Bytes :=
  if off + n ≤ b.length then .ok ((b.drop off).take n) else .error .readPastEnd

/-- One byte of a buffer, by `MemRead(B, off, 1)` (00_scope.md R16). -/
def memReadByte (b : Bytes) (off : Nat) : Except Fault Byte :=
  match b[off]? with
  | some x => .ok x
  | none => .error .readPastEnd

/-- `be(B, 0, |B|)`: the unsigned big-endian integer (00_scope.md R15). -/
def be (b : Bytes) : Nat := b.foldl (fun a x => a * 256 + x.toNat) 0

/-- `le(B, 0, |B|)`: the unsigned little-endian integer (00_scope.md R15). -/
def le (b : Bytes) : Nat := b.foldr (fun x a => x.toNat + 256 * a) 0

/-- `be_bytes(v, n)` (00_scope.md R15). -/
def beBytes (v : Nat) : Nat → Bytes
  | 0 => []
  | n + 1 => BitVec.ofNat 8 (v / 256 ^ n) :: beBytes v n

/-- `le_bytes(v, n)` (00_scope.md R15). -/
def leBytes (v : Nat) : Nat → Bytes
  | 0 => []
  | n + 1 => BitVec.ofNat 8 v :: leBytes (v / 256) n

/-- A length fits a capacity (00_scope.md R13, 42_session.md R156). -/
def capAdmits : Cap → Nat → Bool
  | .bytes n, len => decide (len ≤ n)
  | .unbounded, _ => true

/-- The outcomes a command reports in `STATUS` (60_exceptions.md R250). -/
inductive Status where
  | ok
  | needMore
  | illegalCommand
  | badOperand
  | sessionState
  | malformedKey
  | protocolViolation
  | bufferOverflow
  deriving DecidableEq, Repr

/-- The status codes of 60_exceptions.md R250. -/
def statusCode : Status → BitVec 8
  | .ok => 0x00#8
  | .needMore => 0x01#8
  | .illegalCommand => 0x10#8
  | .badOperand => 0x11#8
  | .sessionState => 0x12#8
  | .malformedKey => 0x20#8
  | .protocolViolation => 0x30#8
  | .bufferOverflow => 0x31#8

/-- The whole result record is written (10_state.md R26), and from now on `RESULT` has a value (R39). -/
def finish (r : Result) (s : State) : State := { s with result := r, resultValid := true }

/-- The context `CTX[sid]` is written (10_state.md R36). -/
def setCtx (sid : BitVec 8) (c : Ctx) (s : State) : State := { s with ctxs := s.ctxs.set sid.toNat c }

/-- The end of a command: the result record is written, nothing else (10_state.md R20, R26). -/
def complete (r : Result) (s : State) : Host.Outcome State Fault Refusal := .next (finish r s)

/-- A result with this status and information and every other field null (10_state.md R26, 60_exceptions.md R251). -/
def statusResult (st : Status) (info : Nat) : Result :=
  { Result.null with status := statusCode st, info := info }

/-- `raise <Status>(info)` of a command error: the command ends at once, `STATUS` and `INFO` are written, every other
result field is null, and no context changes (00_scope.md R16, 60_exceptions.md R258). It is the block's whole exception
entry: there is no trap, saved register or vector (R264). -/
def raise (st : Status) (info : Nat) (s : State) : Host.Outcome State Fault Refusal :=
  complete (statusResult st info) s

/-- The context `CTX[sid]`; none when `sid ≥ N_SESSIONS` (10_state.md R30). -/
def ctxAt (s : State) (sid : BitVec 8) : Option Ctx := s.ctxs[sid.toNat]?

/-- The end of a session command that writes its own context (10_state.md R20, R36). -/
def completeCtx (sid : BitVec 8) (c : Ctx) (r : Result) (s : State) : Host.Outcome State Fault Refusal :=
  complete r (setCtx sid c s)

/-- `SessionFault(code, info)`: the context goes to FAULTED with its buffers cleared, and `MSGS` keeps what the feed emitted
before (42_session.md R149, R153; 60_exceptions.md R257, R258). Its return is SESSION_CLOSE and then SESSION_OPEN (R265). -/
def sessionFault (st : Status) (info : Nat) (msgs : List Bytes) (sid : BitVec 8) (c : Ctx) (s : State) :
    Host.Outcome State Fault Refusal :=
  completeCtx sid { c with state := .faulted, fault := statusCode st, pend := [], acc := [] }
    { statusResult st info with msgs := msgs } s

/-- A computation that may read past a buffer, and what follows it: the fault of 00_scope.md R16 stops the machine. -/
def orFault {α : Type} (x : Except Fault α) (k : α → Host.Outcome State Fault Refusal) :
    Host.Outcome State Fault Refusal :=
  match x with
  | .ok a => k a
  | .error f => .fault f

/-- `Unmask(P, K)` from payload index `k` on: byte `k` is XORed with key byte `k mod 4` (41_unmask.md R130, R132). A key byte
that is not there counts as 0; every caller's key has 4 bytes (R131; notes/assumptions/16.md). -/
def unmaskFrom (key : Bytes) : Nat → Bytes → Bytes
  | _, [] => []
  | k, x :: p => (x ^^^ key.getD (k % 4) 0#8) :: unmaskFrom key (k + 1) p

/-- `Unmask(P, K)`: the index counts from the first payload byte (41_unmask.md R130). -/
def unmask (p key : Bytes) : Bytes := unmaskFrom key 0 p

/-- What the host reads in `RESULT`: no value before the first command after a reset has completed (10_state.md R39). -/
def hostResult (s : State) : Option Result := if s.resultValid then some s.result else none

/-- The host writes `CMD` and the operands of a command it issues (10_state.md R23, R24), leaving its later actions. -/
def present (s : State) (c : Command) (later : List HostAction) : State :=
  { s with cmd := c.cmd, opA := c.opA, opB := c.opB, opC := c.opC, pending := later }

/-- A reset of the block between commands: every context IDLE, `RESULT` without a value, the parameters kept
(70_reset_and_hazards.md R280, R281; notes/assumptions/6.md). -/
def resetBlock (s : State) (later : List HostAction) : State :=
  State.resetOf s.ctxs.length s.cfg later

end Sys2Proof.Machine
end

