-- ==== Sys2Proof/Machine/Operands.lean ====
section
/-! DEFINITION. The common command checks: SID, operand length, operand form, in the order of 60_exceptions.md R259. -/

namespace Sys2Proof.Machine

/-- The lowest-numbered used operand longer than `MAX_OPERAND` (60_exceptions.md R254): `used` lists the operands a command
uses, each with its number (30_encoding.md R70), lowest first. -/
def overlong (maxOperand : Nat) : List (Nat × Bytes) → Option Nat
  | [] => none
  | (k, b) :: used => if maxOperand < b.length then some k else overlong maxOperand used

/-- The checks of a command that is no session command, then its body: SID 0, then the operand lengths (60_exceptions.md
R254, R259 steps 2 and 3). -/
def plainCommand (sid : BitVec 8) (used : List (Nat × Bytes)) (s : State)
    (body : Host.Outcome State Fault Refusal) : Host.Outcome State Fault Refusal :=
  if sid ≠ 0#8 then raise .badOperand 0 s
  else
    match overlong s.cfg.maxOperand used with
    | some k => raise .badOperand k s
    | none => body

/-- The checks of a session command, then its body on the context the SID names: SID below `N_SESSIONS`, then the operand
lengths (60_exceptions.md R254, R259 steps 2 and 3). -/
def sessionCommand (sid : BitVec 8) (used : List (Nat × Bytes)) (s : State)
    (body : Ctx → Host.Outcome State Fault Refusal) : Host.Outcome State Fault Refusal :=
  match ctxAt s sid with
  | none => raise .badOperand 0 s
  | some c =>
    match overlong s.cfg.maxOperand used with
    | some k => raise .badOperand k s
    | none => body c

/-- The variant operand of SESSION_OPEN: one byte, 0x00 or 0x01 (30_encoding.md R89). -/
def variantOperand : Bytes → Option Variant
  | [b] => if b = 0x00#8 then some .modern else if b = 0x01#8 then some .legacy else none
  | _ => none

/-- UNMASK's key has exactly 4 bytes (41_unmask.md R131). -/
def keyLength : Nat := 4

/-- LEGACY_TOKEN's nonce has exactly 8 bytes (44_legacy_token.md R197). -/
def nonceLength : Nat := 8

/-- ACCEPT_KEY's input limit, `|OPA| + 36 < 2^61` (45_accept_key.md R229). -/
def sha1InputLimit : Nat := 2 ^ 61

end Sys2Proof.Machine
end

