-- ==== Sys2Proof/Machine/Digest.lean ====
section
/-! DEFINITION. What MD5 and SHA-1 share: padding and the split into 64-byte blocks (44_legacy_token.md R200, 45_accept_key.md R222). -/

namespace Sys2Proof.Machine

/-- `ROTL_n(x)` on 32 bits (00_scope.md R15). -/
def rotl (x : Word32) (n : Nat) : Word32 := x.rotateLeft n

/-- The least `k` with `(len + 1 + k + 8) mod 64 = 0` (44_legacy_token.md R200, 45_accept_key.md R222). -/
def padZeros (len : Nat) : Nat := (119 - len % 64) % 64

/-- A padded message: the message, 0x80, the zeros, and the 8 bytes of its length field. -/
def padded (m lengthField : Bytes) : Bytes :=
  m ++ 0x80#8 :: (List.replicate (padZeros m.length) 0#8 ++ lengthField)

/-- The 64-byte blocks of a padded message, in order. -/
def blocks (m : Bytes) : List Bytes :=
  (List.range (m.length / 64)).map fun i => (m.drop (64 * i)).take 64

/-- Bytes `4j` to `4j+3` of a block. -/
def wordBytes (block : Bytes) (j : Nat) : Bytes := (block.drop (4 * j)).take 4

end Sys2Proof.Machine
end

