-- ==== Sys2Proof/Machine/Sha1.lean ====
section
/-! DEFINITION. SHA-1 as 45_accept_key.md R222 to R226 give it (notes/assumptions/13.md). -/

namespace Sys2Proof.Machine

/-- The five chaining words. -/
structure Sha1State where
  a : Word32
  b : Word32
  c : Word32
  d : Word32
  e : Word32
  deriving DecidableEq, Repr

/-- The initial state (45_accept_key.md R223). -/
def sha1Init : Sha1State where
  a := 0x67452301#32
  b := 0xEFCDAB89#32
  c := 0x98BADCFE#32
  d := 0x10325476#32
  e := 0xC3D2E1F0#32

/-- The words `W[0]` to `W[15]` of a block (45_accept_key.md R224). -/
def sha1Words (block : Bytes) : List Word32 :=
  (List.range 16).map fun j => BitVec.ofNat 32 (be (wordBytes block j))

/-- `n` more words of the message schedule, newest first (45_accept_key.md R224): `W[t-3]`, `W[t-8]`, `W[t-14]` and `W[t-16]`
stand at places 2, 7, 13 and 15. -/
def sha1Extend : Nat → List Word32 → List Word32
  | 0, w => w
  | n + 1, w =>
    sha1Extend n (rotl (w.getD 2 0#32 ^^^ w.getD 7 0#32 ^^^ w.getD 13 0#32 ^^^ w.getD 15 0#32) 1 :: w)

/-- The message schedule `W[0]` to `W[79]` (45_accept_key.md R224). -/
def sha1Schedule (block : Bytes) : List Word32 := (sha1Extend 64 (sha1Words block).reverse).reverse

/-- `f` of round `t` (45_accept_key.md R225). -/
def sha1F (t : Nat) (b c d : Word32) : Word32 :=
  if t ≤ 19 then (b &&& c) ||| (~~~b &&& d)
  else if t ≤ 39 then b ^^^ c ^^^ d
  else if t ≤ 59 then (b &&& c) ||| (b &&& d) ||| (c &&& d)
  else b ^^^ c ^^^ d

/-- `K` of round `t` (45_accept_key.md R225). -/
def sha1K (t : Nat) : Word32 :=
  if t ≤ 19 then 0x5A827999#32
  else if t ≤ 39 then 0x6ED9EBA1#32
  else if t ≤ 59 then 0x8F1BBCDC#32
  else 0xCA62C1D6#32

/-- Round `t` (45_accept_key.md R225). -/
def sha1Round (w : List Word32) (st : Sha1State) (t : Nat) : Sha1State where
  a := rotl st.a 5 + sha1F t st.b st.c st.d + st.e + sha1K t + w.getD t 0#32
  b := st.a
  c := rotl st.b 30
  d := st.c
  e := st.d

/-- The compression of one block (45_accept_key.md R225). -/
def sha1Block (st : Sha1State) (block : Bytes) : Sha1State :=
  let r := (List.range 80).foldl (sha1Round (sha1Schedule block)) st
  { a := st.a + r.a, b := st.b + r.b, c := st.c + r.c, d := st.d + r.d, e := st.e + r.e }

/-- The padded message (45_accept_key.md R222). -/
def sha1Padded (m : Bytes) : Bytes := padded m (beBytes (8 * m.length) 8)

/-- The digest (45_accept_key.md R226). -/
def sha1 (m : Bytes) : Bytes :=
  let st := (blocks (sha1Padded m)).foldl sha1Block sha1Init
  beBytes st.a.toNat 4 ++ beBytes st.b.toNat 4 ++ beBytes st.c.toNat 4 ++ beBytes st.d.toNat 4 ++ beBytes st.e.toNat 4

end Sys2Proof.Machine
end

