-- ==== Sys2Proof/Machine/AcceptKey.lean ====
section
/-! DEFINITION. The accept-key derivator: the GUID ROM, base64 and ACCEPT_KEY (10_state.md R25, 45_accept_key.md). -/

namespace Sys2Proof.Machine

/-- The GUID ROM, the 36 ASCII bytes of the protocol GUID (10_state.md R25; notes/assumptions/12.md). -/
def guid : Bytes :=
  [0x32#8, 0x35#8, 0x38#8, 0x45#8, 0x41#8, 0x46#8, 0x41#8, 0x35#8, 0x2D#8] ++
  [0x45#8, 0x39#8, 0x31#8, 0x34#8, 0x2D#8] ++
  [0x34#8, 0x37#8, 0x44#8, 0x41#8, 0x2D#8] ++
  [0x39#8, 0x35#8, 0x43#8, 0x41#8, 0x2D#8] ++
  [0x43#8, 0x35#8, 0x41#8, 0x42#8, 0x30#8, 0x44#8, 0x43#8, 0x38#8, 0x35#8, 0x42#8, 0x31#8, 0x31#8]

/-- The base64 alphabet as ASCII bytes (45_accept_key.md R227). -/
def base64Char (v : Nat) : Byte :=
  if v ≤ 25 then BitVec.ofNat 8 (0x41 + v)
  else if v ≤ 51 then BitVec.ofNat 8 (0x61 + (v - 26))
  else if v ≤ 61 then BitVec.ofNat 8 (0x30 + (v - 52))
  else if v = 62 then 0x2B#8
  else 0x2F#8

/-- The padding character `=` (45_accept_key.md R227). -/
def base64Pad : Byte := 0x3D#8

/-- The 24-bit value of a group of 3 bytes (45_accept_key.md R227). -/
def groupValue (x y z : Byte) : Nat := x.toNat * 65536 + y.toNat * 256 + z.toNat

/-- Base64 in its standard form with padding (45_accept_key.md R227). -/
def base64 : Bytes → Bytes
  | x :: y :: z :: more =>
    let v := groupValue x y z
    base64Char (v / 2 ^ 18) :: base64Char (v / 2 ^ 12 % 64) :: base64Char (v / 2 ^ 6 % 64) :: base64Char (v % 64) ::
      base64 more
  | [x, y] =>
    let v := groupValue x y 0#8
    [base64Char (v / 2 ^ 18), base64Char (v / 2 ^ 12 % 64), base64Char (v / 2 ^ 6 % 64), base64Pad]
  | [x] =>
    let v := groupValue x 0#8 0#8
    [base64Char (v / 2 ^ 18), base64Char (v / 2 ^ 12 % 64), base64Pad, base64Pad]
  | [] => []

/-- ACCEPT_KEY (45_accept_key.md R220): the key bytes are hashed as they stand, followed by the GUID (R221). -/
def execAcceptKey (sid : BitVec 8) (s : State) : Host.Outcome State Fault Refusal :=
  plainCommand sid [(1, s.opA)] s <|
    if sha1InputLimit ≤ s.opA.length + guid.length then raise .badOperand 1 s
    else complete { statusResult .ok 0 with out := base64 (sha1 (s.opA ++ guid)) } s

end Sys2Proof.Machine
end

