-- ==== Sys2Proof/Machine/EncodeText.lean ====
section
/-! DEFINITION. The frame encoder: ENCODE_TEXT (43_encode.md). -/

namespace Sys2Proof.Machine

/-- Byte 0 of an encoded frame: FIN 1, reserved 0, opcode text = 0x1 (43_encode.md R181, 30_encoding.md R84). -/
def textByte0 : Byte := 0x81#8

/-- The header of an encoded text frame of `n` payload bytes, in the shortest length form (43_encode.md R180, R182). -/
def textHeader (n : Nat) : Bytes :=
  if n ≤ 125 then [textByte0, BitVec.ofNat 8 n]
  else if n ≤ 65535 then textByte0 :: 126#8 :: beBytes n 2
  else textByte0 :: 127#8 :: beBytes n 8

/-- ENCODE_TEXT (43_encode.md R180): the payload follows the header unmasked (R183). -/
def execEncodeText (sid : BitVec 8) (s : State) : Host.Outcome State Fault Refusal :=
  plainCommand sid [(1, s.opA)] s <|
    complete { statusResult .ok 0 with out := textHeader s.opA.length ++ s.opA } s

end Sys2Proof.Machine
end

