-- ==== Sys2Proof/Machine/Md5.lean ====
section
/-! DEFINITION. MD5 as 44_legacy_token.md R200 to R205 give it (notes/assumptions/13.md). -/

namespace Sys2Proof.Machine

/-- The constants `T[i]`, rows 0 to 3 (44_legacy_token.md R203). -/
def md5T0 : List Word32 :=
  [0xD76AA478#32, 0xE8C7B756#32, 0x242070DB#32, 0xC1BDCEEE#32, 0xF57C0FAF#32, 0x4787C62A#32, 0xA8304613#32, 0xFD469501#32] ++
  [0x698098D8#32, 0x8B44F7AF#32, 0xFFFF5BB1#32, 0x895CD7BE#32, 0x6B901122#32, 0xFD987193#32, 0xA679438E#32, 0x49B40821#32] ++
  [0xF61E2562#32, 0xC040B340#32, 0x265E5A51#32, 0xE9B6C7AA#32, 0xD62F105D#32, 0x02441453#32, 0xD8A1E681#32, 0xE7D3FBC8#32] ++
  [0x21E1CDE6#32, 0xC33707D6#32, 0xF4D50D87#32, 0x455A14ED#32, 0xA9E3E905#32, 0xFCEFA3F8#32, 0x676F02D9#32, 0x8D2A4C8A#32]

/-- The constants `T[i]`, rows 4 to 7 (44_legacy_token.md R203). -/
def md5T1 : List Word32 :=
  [0xFFFA3942#32, 0x8771F681#32, 0x6D9D6122#32, 0xFDE5380C#32, 0xA4BEEA44#32, 0x4BDECFA9#32, 0xF6BB4B60#32, 0xBEBFBC70#32] ++
  [0x289B7EC6#32, 0xEAA127FA#32, 0xD4EF3085#32, 0x04881D05#32, 0xD9D4D039#32, 0xE6DB99E5#32, 0x1FA27CF8#32, 0xC4AC5665#32] ++
  [0xF4292244#32, 0x432AFF97#32, 0xAB9423A7#32, 0xFC93A039#32, 0x655B59C3#32, 0x8F0CCC92#32, 0xFFEFF47D#32, 0x85845DD1#32] ++
  [0x6FA87E4F#32, 0xFE2CE6E0#32, 0xA3014314#32, 0x4E0811A1#32, 0xF7537E82#32, 0xBD3AF235#32, 0x2AD7D2BB#32, 0xEB86D391#32]

/-- `T[i]` (44_legacy_token.md R203). -/
def md5T (i : Nat) : Word32 := (md5T0 ++ md5T1).getD i 0#32

/-- The rotation amounts `s[i]` (44_legacy_token.md R204). -/
def md5S (i : Nat) : Nat :=
  if i ≤ 15 then [7, 12, 17, 22].getD (i % 4) 0
  else if i ≤ 31 then [5, 9, 14, 20].getD (i % 4) 0
  else if i ≤ 47 then [4, 11, 16, 23].getD (i % 4) 0
  else [6, 10, 15, 21].getD (i % 4) 0

/-- The four chaining words. -/
structure Md5State where
  a : Word32
  b : Word32
  c : Word32
  d : Word32
  deriving DecidableEq, Repr

/-- The initial state (44_legacy_token.md R201). -/
def md5Init : Md5State where
  a := 0x67452301#32
  b := 0xEFCDAB89#32
  c := 0x98BADCFE#32
  d := 0x10325476#32

/-- `f` of round `i` (44_legacy_token.md R202). -/
def md5F (i : Nat) (b c d : Word32) : Word32 :=
  if i ≤ 15 then (b &&& c) ||| (~~~b &&& d)
  else if i ≤ 31 then (b &&& d) ||| (c &&& ~~~d)
  else if i ≤ 47 then b ^^^ c ^^^ d
  else c ^^^ (b ||| ~~~d)

/-- `g` of round `i` (44_legacy_token.md R202). -/
def md5G (i : Nat) : Nat :=
  if i ≤ 15 then i
  else if i ≤ 31 then (5 * i + 1) % 16
  else if i ≤ 47 then (3 * i + 5) % 16
  else (7 * i) % 16

/-- The words `X[0]` to `X[15]` of a block (44_legacy_token.md R200). -/
def md5Words (block : Bytes) : List Word32 :=
  (List.range 16).map fun j => BitVec.ofNat 32 (le (wordBytes block j))

/-- Round `i` (44_legacy_token.md R202). -/
def md5Round (x : List Word32) (st : Md5State) (i : Nat) : Md5State where
  a := st.d
  b := st.b + rotl (st.a + md5F i st.b st.c st.d + md5T i + x.getD (md5G i) 0#32) (md5S i)
  c := st.b
  d := st.c

/-- The compression of one block (44_legacy_token.md R202). -/
def md5Block (st : Md5State) (block : Bytes) : Md5State :=
  let e := (List.range 64).foldl (md5Round (md5Words block)) st
  { a := st.a + e.a, b := st.b + e.b, c := st.c + e.c, d := st.d + e.d }

/-- The padded message (44_legacy_token.md R200). -/
def md5Padded (m : Bytes) : Bytes := padded m (leBytes (8 * m.length) 8)

/-- The digest (44_legacy_token.md R205). -/
def md5 (m : Bytes) : Bytes :=
  let st := (blocks (md5Padded m)).foldl md5Block md5Init
  leBytes st.a.toNat 4 ++ leBytes st.b.toNat 4 ++ leBytes st.c.toNat 4 ++ leBytes st.d.toNat 4

end Sys2Proof.Machine
end

