-- ==== Sys2Proof/Machine/LegacyToken.lean ====
section
/-! DEFINITION. The legacy token calculator: KEY_REDUCE, LEGACY_TOKEN (44_legacy_token.md). -/

namespace Sys2Proof.Machine

/-- A decimal-digit character, 0x30 to 0x39 (44_legacy_token.md R191). -/
def isDigit (b : Byte) : Bool := decide (0x30 ≤ b.toNat) && decide (b.toNat ≤ 0x39)

/-- A space character, 0x20 only (44_legacy_token.md R191). -/
def isSpace (b : Byte) : Bool := decide (b = 0x20#8)

/-- `N`: the digits read as a base-10 literal, exactly (44_legacy_token.md R190, R192). -/
def digitValue (digits : Bytes) : Nat := digits.foldl (fun n b => 10 * n + (b.toNat - 0x30)) 0

/-- The overflow check of 44_legacy_token.md R194. -/
def keyOverflow (bound : KeyBound) (n q : Nat) : Bool :=
  match bound with
  | .quotient => decide (2 ^ 32 ≤ q)
  | .parsed => decide (2 ^ 32 ≤ n)

/-- `KeyReduce(K)`: the reduced value, or the reason 1 NoDigits, 2 NoSpaces, 3 Overflow, checked in this order
(44_legacy_token.md R190, R194). -/
def keyReduce (bound : KeyBound) (key : Bytes) : Except Nat Nat :=
  let digits := key.filter isDigit
  let spaces := key.countP isSpace
  if digits.length = 0 then .error 1
  else if spaces = 0 then .error 2
  else
    let n := digitValue digits
    let q := n / spaces
    if keyOverflow bound n q then .error 3 else .ok q

/-- `INFO` of a malformed key: the key's index in bits 7:4, the reason in bits 3:0 (60_exceptions.md R251). -/
def keyInfo (index reason : Nat) : Nat := 16 * index + reason

/-- The packed input: two big-endian 32-bit values and the nonce (44_legacy_token.md R198). -/
def tokenInput (q1 q2 : Nat) (nonce : Bytes) : Bytes := beBytes q1 4 ++ beBytes q2 4 ++ nonce

/-- KEY_REDUCE (44_legacy_token.md R195). -/
def execKeyReduce (sid : BitVec 8) (s : State) : Host.Outcome State Fault Refusal :=
  plainCommand sid [(1, s.opA)] s <|
    match keyReduce s.cfg.keyBound s.opA with
    | .error c => raise .malformedKey (keyInfo 1 c) s
    | .ok q => complete { statusResult .ok 0 with val := BitVec.ofNat 32 q } s

/-- LEGACY_TOKEN (44_legacy_token.md R196): the nonce's length, then key 1, then key 2 (60_exceptions.md R259). -/
def execLegacyToken (sid : BitVec 8) (s : State) : Host.Outcome State Fault Refusal :=
  plainCommand sid [(1, s.opA), (2, s.opB), (3, s.opC)] s <|
    if s.opC.length ≠ nonceLength then raise .badOperand 3 s
    else
      match keyReduce s.cfg.keyBound s.opA with
      | .error c => raise .malformedKey (keyInfo 1 c) s
      | .ok q1 =>
        match keyReduce s.cfg.keyBound s.opB with
        | .error c => raise .malformedKey (keyInfo 2 c) s
        | .ok q2 => complete { statusResult .ok 0 with out := md5 (tokenInput q1 q2 s.opC) } s

end Sys2Proof.Machine
end

