-- ==== Sys2Proof/Machine/Flags.lean ====
section
/-! DEFINITION. The bit fields of a frame header and the header flags of RESULT (30_encoding.md R75 to R80, 10_state.md R28). -/

namespace Sys2Proof.Machine

/-- `fin = b0[7]` (30_encoding.md R75). -/
def finOf (b0 : Byte) : BitVec 1 := b0.extractLsb' 7 1

/-- `reserved = b0[6:4]` (30_encoding.md R75). -/
def rsvOf (b0 : Byte) : BitVec 3 := b0.extractLsb' 4 3

/-- `opcode = b0[3:0]` (30_encoding.md R75). -/
def opcOf (b0 : Byte) : BitVec 4 := b0.extractLsb' 0 4

/-- `masked = b1[7]` (30_encoding.md R76). -/
def maskedOf (b1 : Byte) : BitVec 1 := b1.extractLsb' 7 1

/-- `L = b1[6:0]` (30_encoding.md R76). -/
def baseLenOf (b1 : Byte) : BitVec 7 := b1.extractLsb' 0 7

/-- The size of the extended length field (30_encoding.md R77). -/
def extOf (len : BitVec 7) : Nat :=
  if len.toNat < 126 then 0 else if len.toNat = 126 then 2 else 8

/-- The header length, known from byte 1 alone: `hl = 2 + ext + 4·masked` (30_encoding.md R80, R85). -/
def headerLenOf (b1 : Byte) : Nat := 2 + extOf (baseLenOf b1) + 4 * (maskedOf b1).toNat

/-- The FrameHeader record (40_frame_decode.md R100). -/
structure FrameHeader where
  fin : BitVec 1
  rsv : BitVec 3
  opc : BitVec 4
  masked : BitVec 1
  /-- `payload_length`, unsigned 64 bits -/
  pl : BitVec 64
  /-- `header_length`: a count of bytes, one of 2, 4, 6, 8, 10, 14 -/
  hl : Nat
  /-- 4 bytes, or none when the frame is unmasked (R107) -/
  key : Bytes
  deriving DecidableEq, Repr

/-- The length of the whole frame, exact (00_scope.md R14, 40_frame_decode.md R108). -/
def frameLen (h : FrameHeader) : Nat := h.hl + h.pl.toNat

/-- The header fields of RESULT, written from a decoded header (40_frame_decode.md R101, R108). -/
def withHeader (r : Result) (h : FrameHeader) : Result :=
  { r with
    hFin := h.fin
    hRsv := h.rsv
    hOpc := h.opc
    hMask := h.masked
    hPlen := h.pl
    hHlen := BitVec.ofNat 4 h.hl
    hKey := h.key }

end Sys2Proof.Machine
end

