-- ==== Sys2Proof/Machine/Frame.lean ====
section
/-! DEFINITION. The frame header decoder and the payload unmasker: HDR_DECODE, FRAME_DECODE, UNMASK (40_frame_decode.md, 41_unmask.md). -/

namespace Sys2Proof.Machine

/-- What `DecodeHeader` returns: a full header, or the count of bytes still needed, never a partial record
(40_frame_decode.md R100). -/
inductive Decoded where
  | needMore (k : Nat)
  | header (h : FrameHeader)
  deriving DecidableEq, Repr

/-- The rest of `DecodeHeader` once bytes 0 and 1 have been read (40_frame_decode.md R103 to R107): the presence check
`n ≥ hl` comes before any read at offset 2 or later (R105). -/
def decodeFields (b : Bytes) (b0 b1 : Byte) : Except Fault Decoded :=
  let masked := maskedOf b1
  let len := baseLenOf b1
  let ext := extOf len
  let hl := headerLenOf b1
  if b.length < hl then .ok (.needMore (hl - b.length))
  else
    match memRead b 2 ext with
    | .error f => .error f
    | .ok extBytes =>
      match memRead b (2 + ext) (4 * masked.toNat) with
      | .error f => .error f
      | .ok key =>
        .ok (.header {
          fin := finOf b0
          rsv := rsvOf b0
          opc := opcOf b0
          masked := masked
          pl := if ext = 0 then len.setWidth 64 else BitVec.ofNat 64 (be extBytes)
          hl := hl
          key := key })

/-- `DecodeHeader(B)` (40_frame_decode.md R101 to R107). -/
def decodeHeader (b : Bytes) : Except Fault Decoded :=
  if b.length < 2 then .ok (.needMore (2 - b.length))
  else
    match memReadByte b 0, memReadByte b 1 with
    | .ok b0, .ok b1 => decodeFields b b0 b1
    | .error f, _ => .error f
    | _, .error f => .error f

/-- The payload of a frame at the start of a buffer, unmasked when the frame is masked (40_frame_decode.md R109, 42_session.md
R146). -/
def framePayload (b : Bytes) (h : FrameHeader) : Except Fault Bytes :=
  match memRead b h.hl h.pl.toNat with
  | .error f => .error f
  | .ok p => .ok (if h.masked = 1#1 then unmask p h.key else p)

/-- HDR_DECODE (40_frame_decode.md R101). -/
def execHdrDecode (sid : BitVec 8) (s : State) : Host.Outcome State Fault Refusal :=
  plainCommand sid [(1, s.opA)] s <|
    orFault (decodeHeader s.opA) fun d =>
      match d with
      | .needMore k => complete (statusResult .needMore k) s
      | .header h => complete (withHeader (statusResult .ok 0) h) s

/-- FRAME_DECODE (40_frame_decode.md R108). -/
def execFrameDecode (sid : BitVec 8) (s : State) : Host.Outcome State Fault Refusal :=
  plainCommand sid [(1, s.opA)] s <|
    orFault (decodeHeader s.opA) fun d =>
      match d with
      | .needMore k => complete (statusResult .needMore k) s
      | .header h =>
        if s.opA.length < frameLen h then
          complete (withHeader (statusResult .needMore (frameLen h - s.opA.length)) h) s
        else
          orFault (framePayload s.opA h) fun p =>
            complete { withHeader (statusResult .ok 0) h with out := p, rem := s.opA.drop (frameLen h) } s

/-- UNMASK (41_unmask.md R130, R131). -/
def execUnmask (sid : BitVec 8) (s : State) : Host.Outcome State Fault Refusal :=
  plainCommand sid [(1, s.opA), (2, s.opB)] s <|
    if s.opB.length ≠ keyLength then raise .badOperand 2 s
    else complete { statusResult .ok 0 with out := unmask s.opA s.opB } s

end Sys2Proof.Machine
end

