-- ==== Sys2Proof/Machine/Session.lean ====
section
/-! DEFINITION. The session sequencer and reassembly buffer: SESSION_OPEN, SESSION_FEED, SESSION_CLOSE, SESSION_QUERY (42_session.md). -/

namespace Sys2Proof.Machine

/-- SESSION_OPEN (42_session.md R140): the variant operand is checked before the session state (60_exceptions.md R259). -/
def execSessionOpen (sid : BitVec 8) (s : State) : Host.Outcome State Fault Refusal :=
  sessionCommand sid [(1, s.opA)] s fun c =>
    match variantOperand s.opA with
    | none => raise .badOperand 1 s
    | some v =>
      if c.state ≠ .idle then raise .sessionState c.state.code.toNat s
      else
        completeCtx sid { state := .opened, variant := v, fault := 0#8, pend := [], acc := [] }
          (statusResult .ok 0) s

/-- How a feed ends: the stream is used up or its tail stored (42_session.md R144, R145, R148), or the session faults
(R152, R156). -/
inductive FeedEnd where
  | done (pend acc : Bytes) (msgs : List Bytes)
  | faulted (st : Status) (info : Nat) (msgs : List Bytes)
  deriving DecidableEq, Repr

/-- `Store(T)` (42_session.md R149, R156). -/
def feedStore (cfg : Config) (tail acc : Bytes) (msgs : List Bytes) : FeedEnd :=
  if capAdmits cfg.pendCap tail.length then .done tail acc msgs
  else .faulted .bufferOverflow 1 msgs

/-- The loop of SESSION_FEED (42_session.md R149). `rest` is the unconsumed stream `stream[off:)`; the first argument bounds
the passes (R148). -/
def feedLoop (cfg : Config) (variant : Variant) :
    Nat → (off : Nat) → (rest acc : Bytes) → (msgs : List Bytes) → Except Fault FeedEnd
  | 0, _, _, _, _ => .error .feedLoopBound
  | passes + 1, off, rest, acc, msgs =>
    if rest.length = 0 then .ok (.done [] acc msgs)
    else
      match decodeHeader rest with
      | .error f => .error f
      | .ok (.needMore _) => .ok (feedStore cfg rest acc msgs)
      | .ok (.header h) =>
        if h.masked = 0#1 ∧ variant = .modern then .ok (.faulted .protocolViolation off msgs)
        else if rest.length < frameLen h then .ok (feedStore cfg rest acc msgs)
        else
          match framePayload rest h with
          | .error f => .error f
          | .ok p =>
            if capAdmits cfg.accCap (acc.length + p.length) then
              if h.fin = 1#1 then
                feedLoop cfg variant passes (off + frameLen h) (rest.drop (frameLen h)) [] (msgs ++ [acc ++ p])
              else
                feedLoop cfg variant passes (off + frameLen h) (rest.drop (frameLen h)) (acc ++ p) msgs
            else .ok (.faulted .bufferOverflow 2 msgs)

/-- The most passes a feed of a stream of `n` bytes makes (42_session.md R148). -/
def feedPasses (n : Nat) : Nat := n / 2 + 1

/-- A feed of a chunk into an OPEN context (42_session.md R143, R149). -/
def feed (cfg : Config) (c : Ctx) (chunk : Bytes) : Except Fault FeedEnd :=
  let stream := c.pend ++ chunk
  feedLoop cfg c.variant (feedPasses stream.length) 0 stream c.acc []

/-- SESSION_FEED (42_session.md R141 to R149). -/
def execSessionFeed (sid : BitVec 8) (s : State) : Host.Outcome State Fault Refusal :=
  sessionCommand sid [(1, s.opA)] s fun c =>
    if c.state ≠ .opened then raise .sessionState c.state.code.toNat s
    else
      orFault (feed s.cfg c s.opA) fun e =>
        match e with
        | .done pend acc msgs =>
          completeCtx sid { c with pend := pend, acc := acc } { statusResult .ok 0 with msgs := msgs } s
        | .faulted st info msgs => sessionFault st info msgs sid c s

/-- SESSION_CLOSE (42_session.md R157). -/
def execSessionClose (sid : BitVec 8) (s : State) : Host.Outcome State Fault Refusal :=
  sessionCommand sid [] s fun _ => completeCtx sid Ctx.idle (statusResult .ok 0) s

/-- SESSION_QUERY (42_session.md R158). -/
def execSessionQuery (sid : BitVec 8) (s : State) : Host.Outcome State Fault Refusal :=
  sessionCommand sid [] s fun c =>
    complete { statusResult .ok 0 with
      qState := c.state.code
      qVariant := c.variant.code
      qFault := c.fault
      qPlen := c.pend.length
      qAlen := c.acc.length } s

end Sys2Proof.Machine
end

