-- ==== Sys2Proof/Machine/Dispatch.lean ====
section
/-! DEFINITION. One arm per command. -/

namespace Sys2Proof.Machine

-- The meaning of each command on a state whose operand registers the host has written.
def exec (i : Instr) (s : State) : Host.Outcome State Fault Refusal :=
  match i with
  | .hdrDecode sid => Sys2Proof.Machine.execHdrDecode sid s
  | .frameDecode sid => Sys2Proof.Machine.execFrameDecode sid s
  | .unmask sid => Sys2Proof.Machine.execUnmask sid s
  | .sessionOpen sid => Sys2Proof.Machine.execSessionOpen sid s
  | .sessionFeed sid => Sys2Proof.Machine.execSessionFeed sid s
  | .sessionClose sid => Sys2Proof.Machine.execSessionClose sid s
  | .sessionQuery sid => Sys2Proof.Machine.execSessionQuery sid s
  | .encodeText sid => Sys2Proof.Machine.execEncodeText sid s
  | .keyReduce sid => Sys2Proof.Machine.execKeyReduce sid s
  | .legacyToken sid => Sys2Proof.Machine.execLegacyToken sid s
  | .acceptKey sid => Sys2Proof.Machine.execAcceptKey sid s

end Sys2Proof.Machine
end

