-- ==== Sys2Proof/Machine/Start.lean ====
section
/-! DEFINITION. Starting a command: the reserved opcodes, and a table word as a command (60_exceptions.md R253). -/

namespace Sys2Proof.Machine

/-- A command word with a reserved `OP` raises `E_ILLEGAL_COMMAND` with `INFO = OP` (60_exceptions.md R253). -/
def execReserved (e : DecodeError) (s : State) : Host.Outcome State Fault Refusal :=
  match e with
  | .reservedOp op => raise .illegalCommand op.toNat s

/-- A word of spec/opcode_table.json as the command the host issues, on the operands that stand in the registers. -/
def issueWord (s : State) (nbits w : Nat) : HostAction :=
  .issue { cmd := BitVec.ofNat 16 (w % 2 ^ nbits), opA := s.opA, opB := s.opB, opC := s.opC }

end Sys2Proof.Machine
end

