-- ==== Sys2Proof/Machine/Step.lean ====
section
/-! DEFINITION. One step of the machine: the host's next action, or an idle step (10_state.md R20, 60_exceptions.md R272). -/

namespace Sys2Proof.Machine

/-- One step. With nothing pending the block waits and all state holds (60_exceptions.md R272, 70_reset_and_hazards.md R282);
a reset comes between commands (R281); a command is presented, decoded and run to completion (10_state.md R20), and a reserved
`OP` raises `E_ILLEGAL_COMMAND` (60_exceptions.md R253). -/
def step (s : State) : Host.Outcome State Fault Refusal :=
  match s.pending with
  | [] => .next s
  | .reset :: later => .next (resetBlock s later)
  | .issue c :: later =>
    match decode c.cmd with
    | .ok i => exec i (present s c later)
    | .error e => execReserved e (present s c later)

/-- `s` with the command word of a table row as the host's next command; the operands stay as they stand
(notes/assumptions/5.md). -/
def State.withFetchWord (s : State) (nbits w : Nat) : State :=
  { s with pending := issueWord s nbits w :: s.pending }

end Sys2Proof.Machine
end

