-- ==== Sys2Proof/Safety.lean ====
section
/-! DEFINITION. The invariants of the block and the vocabulary its claims use: what every reachable state satisfies, a stream delivered in chunks, and frames as they stand on the wire. -/

namespace Sys2Proof.Machine

/-- A build with legal parameters (00_scope.md R13): `N_SESSIONS` is 1 to 256. -/
def State.legalBuild (s : State) : Bool :=
  s.cfg.legal && decide (1 ≤ s.ctxs.length) && decide (s.ctxs.length ≤ 256)

/-- `PEND` of an OPEN context does not begin with a complete frame (10_state.md R34), and a header that already decodes there
has passed the mask policy (42_session.md R152; notes/assumptions/14.md). -/
def partialFrame (variant : Variant) (pend : Bytes) : Bool :=
  match decodeHeader pend with
  | .error _ => false
  | .ok (.needMore _) => true
  | .ok (.header h) =>
    decide (pend.length < frameLen h) && !(decide (h.masked = 0#1) && decide (variant = .modern))

/-- What a context satisfies between commands (10_state.md R31 to R35, R39). -/
def ctxOk (cfg : Config) (c : Ctx) : Bool :=
  match c.state with
  | .idle => decide (c = Ctx.idle)
  | .opened =>
    decide (c.fault = 0#8) && capAdmits cfg.pendCap c.pend.length && capAdmits cfg.accCap c.acc.length &&
      partialFrame c.variant c.pend
  | .faulted =>
    (decide (c.fault = statusCode .protocolViolation) || decide (c.fault = statusCode .bufferOverflow)) &&
      decide (c.pend = []) && decide (c.acc = [])

/-- The values `INFO` takes under each status; no other status is ever written (60_exceptions.md R250, R251). -/
def infoOk (status : BitVec 8) (info : Nat) : Bool :=
  if status = 0x00#8 then decide (info = 0)
  else if status = 0x01#8 then decide (1 ≤ info)
  else if status = 0x10#8 then
    decide (info < 256) && decide (info ∉ [0x01, 0x02, 0x03, 0x10, 0x11, 0x12, 0x13, 0x20, 0x30, 0x31, 0x40])
  else if status = 0x11#8 then decide (info ≤ 3)
  else if status = 0x12#8 then decide (info ≤ 2)
  else if status = 0x20#8 then decide (info ∈ [0x11, 0x12, 0x13, 0x21, 0x22, 0x23])
  else if status = 0x30#8 then true
  else if status = 0x31#8 then decide (info = 1 ∨ info = 2)
  else false

/-- What a result record satisfies (10_state.md R27): a listed status with its information, a header length that is null or
one of the six of 30_encoding.md R80, and a key of 4 bytes exactly when `H_MASK` is 1. -/
def resultOk (r : Result) : Bool :=
  infoOk r.status r.info && decide (r.hHlen.toNat ∈ [0, 2, 4, 6, 8, 10, 14]) &&
    decide (r.hKey.length = 4 * r.hMask.toNat)

/-- The invariant of the block: a legal build, sound contexts, a sound result record. -/
def State.inv (s : State) : Bool :=
  s.legalBuild && s.ctxs.all (ctxOk s.cfg) && resultOk s.result

/-- The answer of a command that writes the result record and nothing else (10_state.md R20). -/
def answers (s : State) (r : Result) : Host.Outcome State Fault Refusal :=
  .next { s with result := r, resultValid := true }

/-- The answer of a session command that writes its own context and the result record, and nothing else (10_state.md R20,
R36). -/
def answersCtx (s : State) (sid : BitVec 8) (c : Ctx) (r : Result) : Host.Outcome State Fault Refusal :=
  .next { s with ctxs := s.ctxs.set sid.toNat c, result := r, resultValid := true }

/-- The result of a raised command error (60_exceptions.md R251, R258): status, information, every other field null. -/
def errorResult (status : BitVec 8) (info : Nat) : Result := { Result.null with status := status, info := info }

/-- The numbers of the operands a command uses (30_encoding.md R70). -/
def usedOperands : Instr → List Nat
  | .hdrDecode _ => [1]
  | .frameDecode _ => [1]
  | .unmask _ => [1, 2]
  | .sessionOpen _ => [1]
  | .sessionFeed _ => [1]
  | .sessionClose _ => []
  | .sessionQuery _ => []
  | .encodeText _ => [1]
  | .keyReduce _ => [1]
  | .legacyToken _ => [1, 2, 3]
  | .acceptKey _ => [1]

/-- Operand 1, 2, 3: `OPA`, `OPB`, `OPC` (60_exceptions.md R251). -/
def operand (s : State) (k : Nat) : Bytes :=
  if k = 1 then s.opA else if k = 2 then s.opB else s.opC

/-- How far a buffer has been decoded, as the boundaries of 40_frame_decode.md R112 count it: byte 1, the end of the header,
the end of the payload. `H_HLEN` is null until a header has decoded. -/
def decodeStage (b : Bytes) (r : Result) : Nat :=
  if b.length < 2 then 0 else if r.hHlen = 0#4 then 1 else 2

/-- The deliveries of a stream: the chunks are fed to one context in order, and delivery stops at the first feed whose status
is not OK (42_session.md R160, 70_reset_and_hazards.md R289). It gives the messages of all the feeds, in order, and the last
state; none when the machine stops. -/
def feedAll (sid : BitVec 8) : List Bytes → State → Option (List Bytes × State)
  | [], s => some ([], s)
  | chunk :: more, s =>
    match exec (.sessionFeed sid) { s with opA := chunk } with
    | .next t =>
      if t.result.status = statusCode .ok then
        match feedAll sid more t with
        | some (msgs, u) => some (t.result.msgs ++ msgs, u)
        | none => none
      else some (t.result.msgs, t)
    | .fault _ => none
    | .refused _ => none

/-- The three length forms of a frame header (30_encoding.md R77). -/
inductive LenForm where
  | base
  | ext16
  | ext64
  deriving DecidableEq, Repr

/-- The size of the extended length field of a form (30_encoding.md R77). -/
def LenForm.extBytes : LenForm → Nat
  | .base => 0
  | .ext16 => 2
  | .ext64 => 8

/-- A frame as a sender builds it: any flags, any length form that holds the payload, masked with a 4-byte key or unmasked
(30_encoding.md R75 to R82). The payload is the plain one. -/
structure WireFrame where
  fin : BitVec 1
  rsv : BitVec 3
  opc : BitVec 4
  form : LenForm
  key : Option (Vector Byte 4)
  payload : Bytes
  deriving DecidableEq, Repr

/-- The length form holds the payload (30_encoding.md R77). -/
def WireFrame.fits (f : WireFrame) : Bool :=
  match f.form with
  | .base => decide (f.payload.length ≤ 125)
  | .ext16 => decide (f.payload.length < 2 ^ 16)
  | .ext64 => decide (f.payload.length < 2 ^ 64)

/-- The mask bit of byte 1 and the key bytes (30_encoding.md R76, R79). -/
def WireFrame.maskBit (f : WireFrame) : BitVec 1 := if f.key.isSome then 1#1 else 0#1

/-- Byte 1 and the extended length (30_encoding.md R76 to R78). -/
def WireFrame.lengthBytes (f : WireFrame) : Bytes :=
  match f.form with
  | .base => [f.maskBit ++ BitVec.ofNat 7 f.payload.length]
  | .ext16 => (f.maskBit ++ 126#7) :: beBytes f.payload.length 2
  | .ext64 => (f.maskBit ++ 127#7) :: beBytes f.payload.length 8

/-- The bytes of the frame on the wire: byte 0, length, key, masked payload (30_encoding.md R75 to R81). -/
def WireFrame.bytes (f : WireFrame) : Bytes :=
  (f.fin ++ f.rsv ++ f.opc) :: f.lengthBytes ++
    (match f.key with
     | some k => k.toList ++ unmask f.payload k.toList
     | none => f.payload)

/-- The messages a run of frames completes, and the payload left over, from what was assembled before: a frame with `fin` 1
ends a message (42_session.md R146, R147, R154, R155). -/
def assemble (acc : Bytes) : List WireFrame → List Bytes × Bytes
  | [] => ([], acc)
  | f :: more =>
    if f.fin = 1#1 then
      let r := assemble [] more
      ((acc ++ f.payload) :: r.1, r.2)
    else assemble (acc ++ f.payload) more

end Sys2Proof.Machine
end

