-- ==== Sys2Proof/Certificates/Slice0/Obligations.lean ====
section
/-! DEFINITION. The statements about the block. A status is written as its code (60_exceptions.md R250). -/

open Sys2Proof Sys2Proof.Machine

/-! ## The command word -/

/-- 30_encoding.md section 1: the encoder and the decoder agree, in both directions, on every command at every SID. -/
def Obligations.DecodeEncodeAgree : Prop :=
  ∀ (i : Instr) (w : BitVec 16), decode w = .ok i ↔ encode i = w

/-- 30_encoding.md section 1: the words of the opcode table, written out as `SID·256 + OP`, decode to their commands. -/
def Obligations.WordsOfTheOpcodeTableDecode : Prop :=
  decode 0b0000000000000001#16 = .ok (.hdrDecode 0x00#8) ∧
  decode 0b0000000000000010#16 = .ok (.frameDecode 0x00#8) ∧
  decode 0b0000000000000011#16 = .ok (.unmask 0x00#8) ∧
  decode 0b0000000100010000#16 = .ok (.sessionOpen 0x01#8) ∧
  decode 0b1111111100010001#16 = .ok (.sessionFeed 0xFF#8) ∧
  decode 0b0000001000010010#16 = .ok (.sessionClose 0x02#8) ∧
  decode 0b1000000000010011#16 = .ok (.sessionQuery 0x80#8) ∧
  decode 0b0000000000100000#16 = .ok (.encodeText 0x00#8) ∧
  decode 0b0000000000110000#16 = .ok (.keyReduce 0x00#8) ∧
  decode 0b0000000000110001#16 = .ok (.legacyToken 0x00#8) ∧
  decode 0b0000000001000000#16 = .ok (.acceptKey 0x00#8)

/-- R72, R253: exactly the reserved values of OP raise E_ILLEGAL_COMMAND, with INFO = OP, whatever the SID, and the only
effect is the write of RESULT. -/
def Obligations.ReservedOpcodesRaiseIllegalCommand : Prop :=
  ∀ (s : State) (c : Command) (later : List HostAction) (op : Nat),
    s.pending = .issue c :: later → op = c.cmd.toNat % 256 →
    ((op = 0x00 ∨ (0x04 ≤ op ∧ op ≤ 0x0F) ∨ (0x14 ≤ op ∧ op ≤ 0x1F) ∨ (0x21 ≤ op ∧ op ≤ 0x2F) ∨
        (0x32 ≤ op ∧ op ≤ 0x3F) ∨ 0x41 ≤ op) →
      step s = answers { s with cmd := c.cmd, opA := c.opA, opB := c.opB, opC := c.opC, pending := later }
        (errorResult 0x10#8 op)) ∧
    (op ∈ [0x01, 0x02, 0x03, 0x10, 0x11, 0x12, 0x13, 0x20, 0x30, 0x31, 0x40] →
      ∃ t, step s = .next t ∧ t.result.status ≠ 0x10#8)

/-! ## The step -/

/-- A step runs the decoded command on the operands the host presents. The list of host actions is the model's choice
(notes/assumptions/5.md). -/
def Obligations.StepRunsTheIssuedCommand : Prop :=
  ∀ (s : State) (c : Command) (later : List HostAction) (i : Instr),
    s.pending = .issue c :: later → decode c.cmd = .ok i →
    step s = exec i { s with cmd := c.cmd, opA := c.opA, opB := c.opB, opC := c.opC, pending := later }

/-- 60_exceptions.md section 4 (power states), 70_reset_and_hazards.md section 1: with nothing for it to do the block is idle
and all state holds. The list of host actions is the model's choice (notes/assumptions/5.md). -/
def Obligations.IdleStepHoldsAllState : Prop :=
  ∀ s : State, s.pending = [] → step s = .next s

/-- 70_reset_and_hazards.md section 1: a reset makes every context IDLE with null fields and empty buffers and leaves RESULT
without a value; the parameters, the number of contexts and the host's later actions stay. The list of host actions and the
way the model says 'no value' are its own (notes/assumptions/4.md, 5.md, 6.md). -/
def Obligations.HostResetClearsEveryContext : Prop :=
  ∀ (s : State) (later : List HostAction), s.pending = .reset :: later →
    ∃ t, step s = .next t ∧ t.ctxs.length = s.ctxs.length ∧
      (∀ c ∈ t.ctxs, c.state = .idle ∧ c.variant.code = 0#1 ∧ c.fault = 0#8 ∧ c.pend = [] ∧ c.acc = []) ∧
      hostResult t = none ∧ t.cfg = s.cfg ∧ t.pending = later

/-- 10_state.md section 6: the state after reset. Every context is at the reset values of R39 and RESULT has no value. Four
contexts, the parameters and an empty list of host actions are the model's choices (notes/assumptions/2.md, 5.md). -/
def Obligations.ResetStateValues : Prop :=
  State.reset.ctxs = List.replicate 4 { state := .idle, variant := .modern, fault := 0#8, pend := [], acc := [] } ∧
  hostResult State.reset = none ∧ State.reset.pending = [] ∧
  State.reset.cfg = { maxOperand := 2 ^ 64 - 1, pendCap := .unbounded, accCap := .unbounded, keyBound := .quotient }

/-- 10_state.md section 6 (RESULT after reset), section 3: RESULT has a value from the first completed command on. The way
the model says 'no value' is its own (notes/assumptions/4.md). -/
def Obligations.ResultHasAValueOnceACommandCompletes : Prop :=
  ∀ (s : State) (c : Command) (later : List HostAction), s.pending = .issue c :: later →
    ∃ t, step s = .next t ∧ hostResult t = some t.result

/-- 40_frame_decode.md section 4, 60_exceptions.md section 2: no step faults or is refused, from any state at all: no read
passes the end of a buffer, and a feed's loop ends within its bound. -/
def Obligations.EveryStepCompletes : Prop :=
  ∀ s : State, ∃ t, step s = .next t

/-- 00_scope.md section 4, 10_state.md sections 3 and 6: no step changes the parameters or the number of contexts, and a
command never changes CMD or an operand: after a step they hold what the host presented. -/
def Obligations.StepKeepsParametersAndOperands : Prop :=
  ∀ s t : State, step s = .next t →
    t.cfg = s.cfg ∧ t.ctxs.length = s.ctxs.length ∧
    (∀ c later, s.pending = .issue c :: later →
      t.cmd = c.cmd ∧ t.opA = c.opA ∧ t.opB = c.opB ∧ t.opC = c.opC ∧ t.pending = later)

/-! ## Frame decoding -/

/-- R103, R104, R106, R107: the header DecodeHeader gives, field by field, and the count it reports when bytes lack. -/
def Obligations.DecodeHeaderFields : Prop :=
  ∀ b : Bytes,
    (b.length < 2 → decodeHeader b = .ok (.needMore (2 - b.length))) ∧
    (∀ (b0 b1 : Byte) (more : Bytes) (len ext masked hl : Nat), b = b0 :: b1 :: more →
      len = b1.toNat % 128 → masked = b1.toNat / 128 →
      ext = (if len < 126 then 0 else if len = 126 then 2 else 8) → hl = 2 + ext + 4 * masked →
      (b.length < hl → decodeHeader b = .ok (.needMore (hl - b.length))) ∧
      (hl ≤ b.length → ∃ h, decodeHeader b = .ok (.header h) ∧
        h.fin.toNat = b0.toNat / 128 ∧ h.rsv.toNat = b0.toNat / 16 % 8 ∧ h.opc.toNat = b0.toNat % 16 ∧
        h.masked.toNat = masked ∧ h.hl = hl ∧
        h.pl.toNat = (if ext = 0 then len
          else ((List.range ext).map fun k => (b.getD (2 + k) 0#8).toNat * 256 ^ (ext - 1 - k)).sum) ∧
        h.key = (if masked = 1 then (b.drop (2 + ext)).take 4 else [])))

/-- R101: HDR_DECODE on every operand and every SID: the two interface errors, NEED_MORE with the count, and the header
fields with every other field null. -/
def Obligations.HdrDecodeResult : Prop :=
  ∀ (sid : BitVec 8) (s : State),
    (sid ≠ 0#8 → exec (.hdrDecode sid) s = answers s (errorResult 0x11#8 0)) ∧
    (sid = 0#8 → s.cfg.maxOperand < s.opA.length → exec (.hdrDecode sid) s = answers s (errorResult 0x11#8 1)) ∧
    (sid = 0#8 → s.opA.length ≤ s.cfg.maxOperand →
      (s.opA.length < 2 → exec (.hdrDecode sid) s = answers s (errorResult 0x01#8 (2 - s.opA.length))) ∧
      (∀ (b0 b1 : Byte) (more : Bytes) (len ext masked hl : Nat), s.opA = b0 :: b1 :: more →
        len = b1.toNat % 128 → masked = b1.toNat / 128 →
        ext = (if len < 126 then 0 else if len = 126 then 2 else 8) → hl = 2 + ext + 4 * masked →
        (s.opA.length < hl → exec (.hdrDecode sid) s = answers s (errorResult 0x01#8 (hl - s.opA.length))) ∧
        (hl ≤ s.opA.length → exec (.hdrDecode sid) s = answers s { Result.null with
          status := 0x00#8
          hFin := BitVec.ofNat 1 (b0.toNat / 128)
          hRsv := BitVec.ofNat 3 (b0.toNat / 16)
          hOpc := BitVec.ofNat 4 b0.toNat
          hMask := BitVec.ofNat 1 masked
          hPlen := BitVec.ofNat 64 (if ext = 0 then len
            else ((List.range ext).map fun k => (s.opA.getD (2 + k) 0#8).toNat * 256 ^ (ext - 1 - k)).sum)
          hHlen := BitVec.ofNat 4 hl
          hKey := if masked = 1 then (s.opA.drop (2 + ext)).take 4 else [] })))

/-- R108, R110: FRAME_DECODE on every operand and every SID. The comparison of the frame's length with the buffer's is
exact. -/
def Obligations.FrameDecodeResult : Prop :=
  ∀ (sid : BitVec 8) (s : State),
    (sid ≠ 0#8 → exec (.frameDecode sid) s = answers s (errorResult 0x11#8 0)) ∧
    (sid = 0#8 → s.cfg.maxOperand < s.opA.length → exec (.frameDecode sid) s = answers s (errorResult 0x11#8 1)) ∧
    (sid = 0#8 → s.opA.length ≤ s.cfg.maxOperand →
      (∀ k, decodeHeader s.opA = .ok (.needMore k) →
        exec (.frameDecode sid) s = answers s (errorResult 0x01#8 k)) ∧
      (∀ (h : FrameHeader) (hdr : Result), decodeHeader s.opA = .ok (.header h) →
        hdr = { Result.null with
          hFin := h.fin, hRsv := h.rsv, hOpc := h.opc, hMask := h.masked, hPlen := h.pl,
          hHlen := BitVec.ofNat 4 h.hl, hKey := h.key } →
        (s.opA.length < h.hl + h.pl.toNat → exec (.frameDecode sid) s =
          answers s { hdr with status := 0x01#8, info := h.hl + h.pl.toNat - s.opA.length }) ∧
        (h.hl + h.pl.toNat ≤ s.opA.length → exec (.frameDecode sid) s =
          answers s { hdr with
            status := 0x00#8
            out := if h.masked = 1#1 then unmask ((s.opA.drop h.hl).take h.pl.toNat) h.key
              else (s.opA.drop h.hl).take h.pl.toNat
            rem := s.opA.drop (h.hl + h.pl.toNat) })))

/-- 40_frame_decode.md section 4 (meaning of the NEED_MORE count): the count is at least 1, and appending exactly that many
bytes decodes the frame or reports a later boundary, never the same one. -/
def Obligations.NeedMoreCountReachesTheNextBoundary : Prop :=
  ∀ s t : State, s.opA.length ≤ s.cfg.maxOperand → exec (.frameDecode 0#8) s = .next t → t.result.status = 0x01#8 →
    1 ≤ t.result.info ∧
    ∀ more : Bytes, more.length = t.result.info → s.opA.length + more.length ≤ s.cfg.maxOperand →
      ∃ u, exec (.frameDecode 0#8) { s with opA := s.opA ++ more } = .next u ∧
        (u.result.status = 0x00#8 ∨
          (u.result.status = 0x01#8 ∧ decodeStage s.opA t.result < decodeStage (s.opA ++ more) u.result))

/-- 40_frame_decode.md section 4 (corner cases): bytes after a decoded header do not change the answer of HDR_DECODE. -/
def Obligations.HdrDecodeIgnoresTrailingBytes : Prop :=
  ∀ (s t : State) (more : Bytes), s.opA.length + more.length ≤ s.cfg.maxOperand →
    exec (.hdrDecode 0#8) s = .next t → t.result.status = 0x00#8 →
    ∃ u, exec (.hdrDecode 0#8) { s with opA := s.opA ++ more } = .next u ∧ u.result = t.result

/-- 30_encoding.md section 2, 40_frame_decode.md section 3: a frame built as a sender builds it, with any flags, any length
form that holds its payload, masked or not, decodes to its fields, its header length (which tells its length form) and its
payload, and what follows it is the remainder. -/
def Obligations.FrameDecodeInvertsFraming : Prop :=
  ∀ (s : State) (f : WireFrame) (rest : Bytes), f.fits = true → s.opA = f.bytes ++ rest →
    s.opA.length ≤ s.cfg.maxOperand →
    ∃ t, exec (.frameDecode 0#8) s = .next t ∧ t.result.status = 0x00#8 ∧ t.result.hFin = f.fin ∧
      t.result.hRsv = f.rsv ∧ t.result.hOpc = f.opc ∧ t.result.hMask = f.maskBit ∧
      t.result.hPlen.toNat = f.payload.length ∧
      t.result.hHlen.toNat = 2 + f.form.extBytes + 4 * f.maskBit.toNat ∧
      t.result.hKey = (match f.key with | some k => k.toList | none => []) ∧
      t.result.out = f.payload ∧ t.result.rem = rest

/-! ## Unmasking -/

/-- R130: UNMASK on every operand and every SID: the interface errors, and otherwise byte k of OUT is byte k of OPA XOR byte
k mod 4 of OPB; it is the function `Unmask` that FRAME_DECODE and SESSION_FEED use. -/
def Obligations.UnmaskResult : Prop :=
  ∀ (sid : BitVec 8) (s : State),
    (sid ≠ 0#8 → exec (.unmask sid) s = answers s (errorResult 0x11#8 0)) ∧
    (sid = 0#8 → s.cfg.maxOperand < s.opA.length → exec (.unmask sid) s = answers s (errorResult 0x11#8 1)) ∧
    (sid = 0#8 → s.opA.length ≤ s.cfg.maxOperand → s.cfg.maxOperand < s.opB.length →
      exec (.unmask sid) s = answers s (errorResult 0x11#8 2)) ∧
    (sid = 0#8 → s.opA.length ≤ s.cfg.maxOperand → s.opB.length ≤ s.cfg.maxOperand → s.opB.length ≠ 4 →
      exec (.unmask sid) s = answers s (errorResult 0x11#8 2)) ∧
    (sid = 0#8 → s.opA.length ≤ s.cfg.maxOperand → s.opB.length ≤ s.cfg.maxOperand → s.opB.length = 4 →
      ∃ out, exec (.unmask sid) s = answers s { Result.null with status := 0x00#8, out := out } ∧
        out = unmask s.opA s.opB ∧ out.length = s.opA.length ∧
        ∀ k (hk : k < s.opA.length), out[k]? = some (s.opA[k] ^^^ s.opB.getD (k % 4) 0#8))

/-- 41_unmask.md (lane semantics): masking again with the same key restores the payload. -/
def Obligations.UnmaskTwiceRestoresThePayload : Prop :=
  ∀ s t : State, s.opA.length ≤ s.cfg.maxOperand → s.opB.length ≤ s.cfg.maxOperand → s.opB.length = 4 →
    exec (.unmask 0#8) s = .next t →
    ∃ u, exec (.unmask 0#8) { t with opA := t.result.out } = .next u ∧ u.result.status = 0x00#8 ∧
      u.result.out = s.opA

/-! ## Sessions -/

/-- R140: SESSION_OPEN on every context, operand and SID. -/
def Obligations.SessionOpenResult : Prop :=
  ∀ (sid : BitVec 8) (s : State),
    (s.ctxs.length ≤ sid.toNat → exec (.sessionOpen sid) s = answers s (errorResult 0x11#8 0)) ∧
    (∀ c, s.ctxs[sid.toNat]? = some c →
      (s.cfg.maxOperand < s.opA.length → exec (.sessionOpen sid) s = answers s (errorResult 0x11#8 1)) ∧
      (s.opA ≠ [0x00#8] → s.opA ≠ [0x01#8] → exec (.sessionOpen sid) s = answers s (errorResult 0x11#8 1)) ∧
      (∀ v : Variant, s.opA.length ≤ s.cfg.maxOperand → s.opA = [v.code.setWidth 8] →
        (c.state ≠ .idle →
          exec (.sessionOpen sid) s = answers s (errorResult 0x12#8 c.state.code.toNat)) ∧
        (c.state = .idle → exec (.sessionOpen sid) s =
          answersCtx s sid { state := .opened, variant := v, fault := 0#8, pend := [], acc := [] }
            { Result.null with status := 0x00#8 })))

/-- R142: a feed of a context that is not OPEN raises E_SESSION_STATE with the state's code and changes nothing. -/
def Obligations.FeedNeedsAnOpenSession : Prop :=
  ∀ (sid : BitVec 8) (s : State) (c : Ctx), s.ctxs[sid.toNat]? = some c →
    s.opA.length ≤ s.cfg.maxOperand → c.state ≠ .opened →
    exec (.sessionFeed sid) s = answers s (errorResult 0x12#8 c.state.code.toNat)

/-- R145, R149: SESSION_FEED, one pass at a time. A context that is not OPEN raises. On an OPEN context the stream is PEND and
then the chunk. It is used up, or its tail is stored, or the session faults, or its first frame is consumed and the feed goes
on exactly as a feed of the rest of the stream does from the context that frame leaves, with the frame's message in front and
the frame's length added to the offset a later violation reports. -/
def Obligations.SessionFeedPassByPass : Prop :=
  ∀ (sid : BitVec 8) (s : State) (c : Ctx) (stream : Bytes), s.ctxs[sid.toNat]? = some c →
    s.opA.length ≤ s.cfg.maxOperand → stream = c.pend ++ s.opA →
    (c.state ≠ .opened → exec (.sessionFeed sid) s = answers s (errorResult 0x12#8 c.state.code.toNat)) ∧
    ∀ (store : Host.Outcome State Fault Refusal) (faultWith : BitVec 8 → Nat → Host.Outcome State Fault Refusal),
      (faultWith = fun code info =>
        answersCtx s sid { c with state := .faulted, fault := code, pend := [], acc := [] }
          { Result.null with status := code, info := info }) →
      (store = if capAdmits s.cfg.pendCap stream.length
        then answersCtx s sid { c with pend := stream } { Result.null with status := 0x00#8 }
        else faultWith 0x31#8 1) →
      c.state = .opened →
      (stream = [] →
        exec (.sessionFeed sid) s = answersCtx s sid { c with pend := [] } { Result.null with status := 0x00#8 }) ∧
      (∀ k, stream ≠ [] → decodeHeader stream = .ok (.needMore k) → exec (.sessionFeed sid) s = store) ∧
      (∀ h, decodeHeader stream = .ok (.header h) →
        (h.masked = 0#1 → c.variant = .modern → exec (.sessionFeed sid) s = faultWith 0x30#8 0) ∧
        (¬(h.masked = 0#1 ∧ c.variant = .modern) → stream.length < h.hl + h.pl.toNat →
          exec (.sessionFeed sid) s = store) ∧
        (¬(h.masked = 0#1 ∧ c.variant = .modern) → h.hl + h.pl.toNat ≤ stream.length →
          (capAdmits s.cfg.accCap (c.acc.length + h.pl.toNat) = false →
            exec (.sessionFeed sid) s = faultWith 0x31#8 2) ∧
          (∀ (raw payload acc : Bytes) (emitted : List Bytes), raw = (stream.drop h.hl).take h.pl.toNat →
            payload = (if h.masked = 1#1 then unmask raw h.key else raw) →
            acc = (if h.fin = 1#1 then [] else c.acc ++ payload) →
            emitted = (if h.fin = 1#1 then [c.acc ++ payload] else []) →
            capAdmits s.cfg.accCap (c.acc.length + h.pl.toNat) = true →
            ∃ t,
              exec (.sessionFeed sid) { s with
                ctxs := s.ctxs.set sid.toNat { c with pend := stream.drop (h.hl + h.pl.toNat), acc := acc },
                opA := [] } = .next t ∧
              exec (.sessionFeed sid) s = .next { t with
                opA := s.opA
                result := { t.result with
                  info := if t.result.status = 0x30#8 then h.hl + h.pl.toNat + t.result.info else t.result.info
                  msgs := emitted ++ t.result.msgs } })))

/-- 42_session.md sections 2 and 3 (steps 4 to 6, empty payloads, exactly-once dispatch): a stream of whole frames, of any
flags and length forms, and then a partial tail, is reassembled: each frame with FIN = 1 ends exactly one message, whatever
the opcodes, the rest of the payload stays in ACC and the tail in PEND. Frames are masked, or the session is legacy. -/
def Obligations.FeedReassemblesWholeFrames : Prop :=
  ∀ (sid : BitVec 8) (s : State) (c : Ctx) (frames : List WireFrame) (tail : Bytes),
    s.ctxs[sid.toNat]? = some c → c.state = .opened → s.opA.length ≤ s.cfg.maxOperand →
    s.cfg.accCap = .unbounded → capAdmits s.cfg.pendCap tail.length = true →
    (∀ f ∈ frames, f.fits = true ∧ (c.variant = .modern → f.key.isSome = true)) →
    partialFrame c.variant tail = true → c.pend ++ s.opA = frames.flatMap WireFrame.bytes ++ tail →
    exec (.sessionFeed sid) s =
      answersCtx s sid { c with pend := tail, acc := (assemble c.acc frames).2 }
        { Result.null with status := 0x00#8, msgs := (assemble c.acc frames).1 }

/-- 42_session.md section 5 (chunking does not change framing): when no feed of a stream's chunks faults, one feed of the
whole stream does not fault, emits the same messages, and leaves the same context, whatever the capacities. -/
def Obligations.ChunkedDeliveryKeepsFraming : Prop :=
  ∀ (sid : BitVec 8) (s t : State) (chunks msgs : List Bytes), chunks ≠ [] →
    (∃ c, s.ctxs[sid.toNat]? = some c ∧ c.state = .opened) → chunks.flatten.length ≤ s.cfg.maxOperand →
    feedAll sid chunks s = some (msgs, t) → t.result.status = 0x00#8 →
    ∃ u, exec (.sessionFeed sid) { s with opA := chunks.flatten } = .next u ∧ u.result.status = 0x00#8 ∧
      u.result.msgs = msgs ∧ u.ctxs = t.ctxs

/-- 42_session.md section 5: with unbounded capacities the delivery in chunks and the delivery of the whole stream end with
the same status, the same messages and the same contexts, also when a feed faults. -/
def Obligations.ChunkedDeliveryAgreesWithoutCapacities : Prop :=
  ∀ (sid : BitVec 8) (s : State) (chunks : List Bytes), chunks ≠ [] →
    (∃ c, s.ctxs[sid.toNat]? = some c ∧ c.state = .opened) → chunks.flatten.length ≤ s.cfg.maxOperand →
    s.cfg.pendCap = .unbounded → s.cfg.accCap = .unbounded →
    ∃ t u msgs, feedAll sid chunks s = some (msgs, t) ∧
      exec (.sessionFeed sid) { s with opA := chunks.flatten } = .next u ∧
      u.result.status = t.result.status ∧ u.result.msgs = msgs ∧ u.ctxs = t.ctxs

/-- 42_session.md section 3 (empty chunk): in a sound OPEN context an empty chunk emits nothing and changes no context. -/
def Obligations.EmptyChunkChangesNothing : Prop :=
  ∀ (sid : BitVec 8) (s : State) (c : Ctx), s.ctxs[sid.toNat]? = some c → c.state = .opened →
    ctxOk s.cfg c = true → s.opA = [] →
    exec (.sessionFeed sid) s = answers s { Result.null with status := 0x00#8 }

/-- R157: SESSION_CLOSE succeeds in every state, ignores the operands, and makes its context IDLE. -/
def Obligations.SessionCloseResult : Prop :=
  ∀ (sid : BitVec 8) (s : State),
    (s.ctxs.length ≤ sid.toNat → exec (.sessionClose sid) s = answers s (errorResult 0x11#8 0)) ∧
    (sid.toNat < s.ctxs.length → exec (.sessionClose sid) s =
      answersCtx s sid { state := .idle, variant := .modern, fault := 0#8, pend := [], acc := [] }
        { Result.null with status := 0x00#8 })

/-- R158: SESSION_QUERY reports its context in every state, ignores the operands, and changes no context. In a sound state an
IDLE context reports zeros. -/
def Obligations.SessionQueryResult : Prop :=
  ∀ (sid : BitVec 8) (s : State),
    (s.ctxs.length ≤ sid.toNat → exec (.sessionQuery sid) s = answers s (errorResult 0x11#8 0)) ∧
    (∀ c, s.ctxs[sid.toNat]? = some c →
      exec (.sessionQuery sid) s = answers s { Result.null with
        status := 0x00#8
        qState := c.state.code
        qVariant := c.variant.code
        qFault := c.fault
        qPlen := c.pend.length
        qAlen := c.acc.length } ∧
      (ctxOk s.cfg c = true → c.state = .idle →
        exec (.sessionQuery sid) s = answers s { Result.null with status := 0x00#8 }))

/-- 42_session.md section 3 (effects of a session fault), 60_exceptions.md section 2 (session faults): the context is FAULTED
with the status and empty buffers, its variant kept, and every later feed raises E_SESSION_STATE with INFO 2. -/
def Obligations.SessionFaultEffects : Prop :=
  ∀ (sid : BitVec 8) (s t : State), exec (.sessionFeed sid) s = .next t →
    (t.result.status = 0x30#8 ∨ t.result.status = 0x31#8) →
    ∃ c, s.ctxs[sid.toNat]? = some c ∧ c.state = .opened ∧
      t.ctxs = s.ctxs.set sid.toNat
        { state := .faulted, variant := c.variant, fault := t.result.status, pend := [], acc := [] } ∧
      (t.result.status = 0x30#8 → c.variant = .modern ∧ t.result.info + 2 ≤ c.pend.length + s.opA.length) ∧
      (t.result.status = 0x31#8 → t.result.info = 1 ∨ t.result.info = 2) ∧
      ∀ chunk : Bytes, chunk.length ≤ t.cfg.maxOperand →
        exec (.sessionFeed sid) { t with opA := chunk } = answers { t with opA := chunk } (errorResult 0x12#8 2)

/-- 60_exceptions.md section 3 (the fault state is sticky; return only through SESSION_CLOSE): a FAULTED context keeps every
field through every step but a SESSION_CLOSE of it and a reset. -/
def Obligations.FaultedContextStaysUntilClosed : Prop :=
  ∀ (s t : State) (k : Nat) (c : Ctx), s.ctxs[k]? = some c → c.state = .faulted → step s = .next t →
    (∀ later, s.pending ≠ .reset :: later) →
    (∀ cmd later sid, s.pending = .issue cmd :: later → decode cmd.cmd = .ok (.sessionClose sid) → sid.toNat ≠ k) →
    t.ctxs[k]? = some c

/-- 10_state.md section 4 (the transitions of CTX_STATE), 42_session.md: only SESSION_OPEN leaves IDLE, to OPEN; only a feed
faults, from OPEN; only SESSION_CLOSE and a reset lead to IDLE. -/
def Obligations.OnlySessionCommandsMoveCtxState : Prop :=
  ∀ (s t : State) (k : Nat) (c d : Ctx), s.ctxs[k]? = some c → t.ctxs[k]? = some d → step s = .next t →
    c.state ≠ d.state →
    (∃ later, s.pending = .reset :: later ∧ d.state = .idle) ∨
    (∃ cmd later i, s.pending = .issue cmd :: later ∧ decode cmd.cmd = .ok i ∧ i.sid.toNat = k ∧
      ((i = .sessionOpen i.sid ∧ c.state = .idle ∧ d.state = .opened) ∨
       (i = .sessionFeed i.sid ∧ c.state = .opened ∧ d.state = .faulted) ∨
       (i = .sessionClose i.sid ∧ d.state = .idle)))

/-- 10_state.md section 4 (the variant is fixed after the handshake), 70_reset_and_hazards.md section 1: no step changes the
variant of a context that is live before and after it. -/
def Obligations.VariantFixedWhileLive : Prop :=
  ∀ (s t : State) (k : Nat) (c d : Ctx), s.ctxs[k]? = some c → t.ctxs[k]? = some d → step s = .next t →
    c.state ≠ .idle → d.state ≠ .idle → d.variant = c.variant

/-! ## Isolation and ordering -/

/-- 10_state.md section 4 (contexts are isolated), 20_memory.md section 3: what a command leaves unchanged. A command that is no
session command, and SESSION_QUERY, write RESULT alone; a session command writes at most its own context and RESULT. -/
def Obligations.CommandsWriteOnlyResultAndOwnContext : Prop :=
  ∀ (i : Instr) (s t : State), exec i s = .next t →
    t = { s with ctxs := t.ctxs, result := t.result, resultValid := true } ∧
    t.ctxs.length = s.ctxs.length ∧
    (∀ k, k ≠ i.sid.toNat → t.ctxs[k]? = s.ctxs[k]?) ∧
    (i.isSession = false → t.ctxs = s.ctxs) ∧
    (i = .sessionQuery i.sid → t.ctxs = s.ctxs)

/-- 10_state.md sections 3 and 4, 20_memory.md section 3: what a command reads. Two runs that agree on the parameters, on the
operands the command uses and, for a session command, on its own context give the same result and the same own context: no
other context, no unused operand, no earlier result can be seen. -/
def Obligations.ResultDependsOnlyOnUsedOperandsAndOwnContext : Prop :=
  ∀ (i : Instr) (s s' t t' : State), s.cfg = s'.cfg →
    (∀ k ∈ usedOperands i, operand s k = operand s' k) →
    (i.isSession = true → s.ctxs[i.sid.toNat]? = s'.ctxs[i.sid.toNat]?) →
    exec i s = .next t → exec i s' = .next t' →
    t.result = t'.result ∧ (i.isSession = true → t.ctxs[i.sid.toNat]? = t'.ctxs[i.sid.toNat]?)

/-- 20_memory.md section 5 (ordering): two commands that do not name the same context leave the same contexts in either
order. -/
def Obligations.CommandsOnDifferentContextsCommute : Prop :=
  ∀ (s : State) (a b : Command) (i j : Instr), decode a.cmd = .ok i → decode b.cmd = .ok j →
    (i.isSession = true → j.isSession = true → i.sid ≠ j.sid) →
    ∃ t t' u u', step { s with pending := [.issue a, .issue b] } = .next t ∧ step t = .next t' ∧
      step { s with pending := [.issue b, .issue a] } = .next u ∧ step u = .next u' ∧ t'.ctxs = u'.ctxs

/-! ## Statuses -/

/-- R258: a raise of a command error writes STATUS and INFO, leaves every other result field null, and changes no context; a
session fault changes only the context it names, and only MSGS is not null beside STATUS and INFO. -/
def Obligations.RaiseWritesOnlyStatusAndInfo : Prop :=
  ∀ (s t presented : State) (c : Command) (later : List HostAction) (sid : Nat), s.pending = .issue c :: later →
    presented = { s with cmd := c.cmd, opA := c.opA, opB := c.opB, opC := c.opC, pending := later } →
    sid = c.cmd.toNat / 256 → step s = .next t →
    (t.result.status ∈ [0x10#8, 0x11#8, 0x12#8, 0x20#8] →
      t = { presented with result := errorResult t.result.status t.result.info, resultValid := true }) ∧
    (t.result.status ∈ [0x30#8, 0x31#8] →
      ∃ x, s.ctxs[sid]? = some x ∧
        t = { presented with
          ctxs := s.ctxs.set sid { x with state := .faulted, fault := t.result.status, pend := [], acc := [] }
          result := { errorResult t.result.status t.result.info with msgs := t.result.msgs }
          resultValid := true })

/-- 60_exceptions.md section 1: the statuses a command can report, command by command; no other value is ever written to STATUS. -/
def Obligations.StatusesEachCommandCanReport : Prop :=
  ∀ (s t : State) (c : Command) (later : List HostAction), s.pending = .issue c :: later → step s = .next t →
    (∀ op, decode c.cmd = .error (.reservedOp op) → t.result.status = 0x10#8) ∧
    (∀ i, decode c.cmd = .ok i →
      t.result.status ∈ [0x00#8, 0x11#8] ∨
      (t.result.status = 0x01#8 ∧ (i = .hdrDecode i.sid ∨ i = .frameDecode i.sid)) ∨
      (t.result.status = 0x12#8 ∧ (i = .sessionOpen i.sid ∨ i = .sessionFeed i.sid)) ∨
      (t.result.status = 0x20#8 ∧ (i = .keyReduce i.sid ∨ i = .legacyToken i.sid)) ∨
      (t.result.status ∈ [0x30#8, 0x31#8] ∧ i = .sessionFeed i.sid))

/-- 60_exceptions.md section 1: the information each status carries, for every command word the host can issue. -/
def Obligations.InfoOfEveryStatus : Prop :=
  ∀ (s t : State) (c : Command) (later : List HostAction), s.pending = .issue c :: later → step s = .next t →
    (t.result.status = 0x00#8 → t.result.info = 0) ∧
    (t.result.status = 0x01#8 → 1 ≤ t.result.info) ∧
    (t.result.status = 0x10#8 → t.result.info = c.cmd.toNat % 256) ∧
    (t.result.status = 0x11#8 → t.result.info ≤ 3 ∧ (t.result.info = 0 ∨
      ∃ i, decode c.cmd = .ok i ∧ t.result.info ∈ usedOperands i)) ∧
    (t.result.status = 0x12#8 → ∃ x, s.ctxs[c.cmd.toNat / 256]? = some x ∧ t.result.info = x.state.code.toNat) ∧
    (t.result.status = 0x20#8 → t.result.info ∈ [0x11, 0x12, 0x13, 0x21, 0x22, 0x23]) ∧
    (t.result.status = 0x30#8 → ∃ x, s.ctxs[c.cmd.toNat / 256]? = some x ∧
      t.result.info < x.pend.length + c.opA.length) ∧
    (t.result.status = 0x31#8 → t.result.info = 1 ∨ t.result.info = 2)

/-- 10_state.md section 3 (width of INFO): INFO fits in 64 bits whenever `PEND_CAP + MAX_OPERAND ≤ 2^64` and no context holds
more than `PEND_CAP` bytes. -/
def Obligations.InfoFitsIn64Bits : Prop :=
  ∀ (i : Instr) (s t : State) (n : Nat), s.cfg.pendCap = .bytes n → n + s.cfg.maxOperand ≤ 2 ^ 64 →
    (∀ c ∈ s.ctxs, c.pend.length ≤ n) → exec i s = .next t → t.result.info < 2 ^ 64

/-- 60_exceptions.md section 2 (causes and priority of E_BAD_OPERAND): the SID is checked first, then the used operands
against MAX_OPERAND, lowest number first; an operand a command does not use is never checked: whatever it holds, and however
long it is, the result and the contexts are the same. -/
def Obligations.CommonChecksInOrder : Prop :=
  ∀ (i : Instr) (s : State),
    (i.wellFormed s.ctxs.length = false → exec i s = answers s (errorResult 0x11#8 0)) ∧
    (∀ k, i.wellFormed s.ctxs.length = true → k ∈ usedOperands i → s.cfg.maxOperand < (operand s k).length →
      (∀ j ∈ usedOperands i, j < k → (operand s j).length ≤ s.cfg.maxOperand) →
      exec i s = answers s (errorResult 0x11#8 k)) ∧
    (∀ a b c : Bytes, (∀ k ∈ usedOperands i, operand { s with opA := a, opB := b, opC := c } k = operand s k) →
      ∃ t u, exec i s = .next t ∧ exec i { s with opA := a, opB := b, opC := c } = .next u ∧
        u.result = t.result ∧ u.ctxs = t.ctxs)

/-! ## Encoding text -/

/-- R180, R181: ENCODE_TEXT on every operand and every SID. -/
def Obligations.EncodeTextResult : Prop :=
  ∀ (sid : BitVec 8) (s : State) (n : Nat), n = s.opA.length →
    (sid ≠ 0#8 → exec (.encodeText sid) s = answers s (errorResult 0x11#8 0)) ∧
    (sid = 0#8 → s.cfg.maxOperand < n → exec (.encodeText sid) s = answers s (errorResult 0x11#8 1)) ∧
    (sid = 0#8 → n ≤ s.cfg.maxOperand → ∃ hdr : Bytes,
      exec (.encodeText sid) s = answers s { Result.null with status := 0x00#8, out := hdr ++ s.opA } ∧
      (n ≤ 125 → hdr = [0x81#8, BitVec.ofNat 8 n]) ∧
      (126 ≤ n → n ≤ 65535 → hdr = [0x81#8, 0x7E#8, BitVec.ofNat 8 (n / 256), BitVec.ofNat 8 n]) ∧
      (65536 ≤ n → hdr = [0x81#8, 0x7F#8, BitVec.ofNat 8 (n / 256 ^ 7), BitVec.ofNat 8 (n / 256 ^ 6),
        BitVec.ofNat 8 (n / 256 ^ 5), BitVec.ofNat 8 (n / 256 ^ 4), BitVec.ofNat 8 (n / 256 ^ 3),
        BitVec.ofNat 8 (n / 256 ^ 2), BitVec.ofNat 8 (n / 256), BitVec.ofNat 8 n]))

/-- 43_encode.md (round trip): decoding an encoded message gives the message back, unmasked text with FIN = 1 and nothing left
over, when the encoded frame is itself a legal operand. A frame longer than MAX_OPERAND raises E_BAD_OPERAND: there the model
follows 60_exceptions.md R254 (notes/assumptions/11.md). -/
def Obligations.EncodeThenDecodeRoundTrip : Prop :=
  ∀ s : State, s.cfg.legal = true → s.opA.length ≤ s.cfg.maxOperand →
    ∃ t, exec (.encodeText 0#8) s = .next t ∧ t.result.status = 0x00#8 ∧
      (t.result.out.length ≤ s.cfg.maxOperand →
        ∃ u, exec (.frameDecode 0#8) { t with opA := t.result.out } = .next u ∧ u.result.status = 0x00#8 ∧
          u.result.hFin = 1#1 ∧ u.result.hRsv = 0#3 ∧ u.result.hOpc = 1#4 ∧ u.result.hMask = 0#1 ∧
          u.result.hPlen.toNat = s.opA.length ∧ u.result.out = s.opA ∧ u.result.rem = []) ∧
      (s.cfg.maxOperand < t.result.out.length →
        exec (.frameDecode 0#8) { t with opA := t.result.out } =
          answers { t with opA := t.result.out } (errorResult 0x11#8 1))

/-! ## Legacy token -/

/-- R190, R193, R194, R195: KEY_REDUCE on every operand and every SID, and with it the function KeyReduce. -/
def Obligations.KeyReduceResult : Prop :=
  ∀ (sid : BitVec 8) (s : State) (d : Bytes) (spaces n q : Nat),
    d = s.opA.filter (fun b => decide (0x30 ≤ b.toNat ∧ b.toNat ≤ 0x39)) →
    spaces = (s.opA.filter (fun b => decide (b = 0x20#8))).length →
    n = ((List.range d.length).map fun j => ((d.getD j 0#8).toNat - 0x30) * 10 ^ (d.length - 1 - j)).sum →
    q = n / spaces →
    (sid ≠ 0#8 → exec (.keyReduce sid) s = answers s (errorResult 0x11#8 0)) ∧
    (sid = 0#8 → s.cfg.maxOperand < s.opA.length → exec (.keyReduce sid) s = answers s (errorResult 0x11#8 1)) ∧
    (sid = 0#8 → s.opA.length ≤ s.cfg.maxOperand →
      (d = [] → keyReduce s.cfg.keyBound s.opA = .error 1 ∧
        exec (.keyReduce sid) s = answers s (errorResult 0x20#8 0x11)) ∧
      (d ≠ [] → spaces = 0 → keyReduce s.cfg.keyBound s.opA = .error 2 ∧
        exec (.keyReduce sid) s = answers s (errorResult 0x20#8 0x12)) ∧
      (d ≠ [] → spaces ≠ 0 →
        ((s.cfg.keyBound = .quotient ∧ 2 ^ 32 ≤ q) ∨ (s.cfg.keyBound = .parsed ∧ 2 ^ 32 ≤ n)) →
        keyReduce s.cfg.keyBound s.opA = .error 3 ∧
          exec (.keyReduce sid) s = answers s (errorResult 0x20#8 0x13)) ∧
      (d ≠ [] → spaces ≠ 0 →
        ¬((s.cfg.keyBound = .quotient ∧ 2 ^ 32 ≤ q) ∨ (s.cfg.keyBound = .parsed ∧ 2 ^ 32 ≤ n)) →
        q < 2 ^ 32 ∧ keyReduce s.cfg.keyBound s.opA = .ok q ∧
          exec (.keyReduce sid) s = answers s { Result.null with status := 0x00#8, val := BitVec.ofNat 32 q }))

/-- R196: LEGACY_TOKEN on every operand and every SID, in the order of its checks; KeyReduce is the function KEY_REDUCE
reports, MD5 the one of the statements about it. -/
def Obligations.LegacyTokenResult : Prop :=
  ∀ (sid : BitVec 8) (s : State),
    (sid ≠ 0#8 → exec (.legacyToken sid) s = answers s (errorResult 0x11#8 0)) ∧
    (∀ k, sid = 0#8 → k ∈ [1, 2, 3] → s.cfg.maxOperand < (operand s k).length →
      (∀ j ∈ [1, 2, 3], j < k → (operand s j).length ≤ s.cfg.maxOperand) →
      exec (.legacyToken sid) s = answers s (errorResult 0x11#8 k)) ∧
    (sid = 0#8 → (∀ k ∈ [1, 2, 3], (operand s k).length ≤ s.cfg.maxOperand) →
      (s.opC.length ≠ 8 → exec (.legacyToken sid) s = answers s (errorResult 0x11#8 3)) ∧
      (s.opC.length = 8 →
        (∀ c, keyReduce s.cfg.keyBound s.opA = .error c →
          exec (.legacyToken sid) s = answers s (errorResult 0x20#8 (0x10 + c))) ∧
        (∀ q1 c, keyReduce s.cfg.keyBound s.opA = .ok q1 → keyReduce s.cfg.keyBound s.opB = .error c →
          exec (.legacyToken sid) s = answers s (errorResult 0x20#8 (0x20 + c))) ∧
        (∀ q1 q2, keyReduce s.cfg.keyBound s.opA = .ok q1 → keyReduce s.cfg.keyBound s.opB = .ok q2 →
          exec (.legacyToken sid) s = answers s { Result.null with
            status := 0x00#8
            out := md5 ([BitVec.ofNat 8 (q1 / 256 ^ 3), BitVec.ofNat 8 (q1 / 256 ^ 2), BitVec.ofNat 8 (q1 / 256),
                BitVec.ofNat 8 q1] ++
              [BitVec.ofNat 8 (q2 / 256 ^ 3), BitVec.ofNat 8 (q2 / 256 ^ 2), BitVec.ofNat 8 (q2 / 256),
                BitVec.ofNat 8 q2] ++ s.opC) })))

/-- R200: the padding of MD5, its split into 64-byte blocks, and the sixteen little-endian words of a block. -/
def Obligations.Md5PaddingBlocksAndWords : Prop :=
  ∀ m : Bytes,
    (∃ k, md5Padded m = m ++ [0x80#8] ++ List.replicate k 0#8 ++
        [BitVec.ofNat 8 (8 * m.length), BitVec.ofNat 8 (8 * m.length / 256), BitVec.ofNat 8 (8 * m.length / 256 ^ 2),
          BitVec.ofNat 8 (8 * m.length / 256 ^ 3), BitVec.ofNat 8 (8 * m.length / 256 ^ 4),
          BitVec.ofNat 8 (8 * m.length / 256 ^ 5), BitVec.ofNat 8 (8 * m.length / 256 ^ 6),
          BitVec.ofNat 8 (8 * m.length / 256 ^ 7)] ∧
      (m.length + 1 + k + 8) % 64 = 0 ∧ ∀ j < k, (m.length + 1 + j + 8) % 64 ≠ 0) ∧
    (blocks (md5Padded m)).flatten = md5Padded m ∧ (∀ b ∈ blocks (md5Padded m), b.length = 64) ∧
    (∀ b : Bytes, b.length = 64 → (md5Words b).length = 16 ∧
      ∀ j < 16, ((md5Words b).getD j 0#32).toNat =
        ((List.range 4).map fun k => (b.getD (4 * j + k) 0#8).toNat * 256 ^ k).sum)

/-- R202: the compression of a block: 64 rounds by the recurrence of the rule, and the sum with the state before. -/
def Obligations.Md5CompressionRecurrence : Prop :=
  ∀ (st : Md5State) (block : Bytes), ∃ v : Nat → Md5State, v 0 = st ∧
    (∀ i < 64, ∃ f : Word32, ∃ g : Nat,
      (i ≤ 15 → f = ((v i).b &&& (v i).c) ||| (~~~(v i).b &&& (v i).d) ∧ g = i) ∧
      (16 ≤ i → i ≤ 31 → f = ((v i).b &&& (v i).d) ||| ((v i).c &&& ~~~(v i).d) ∧ g = (5 * i + 1) % 16) ∧
      (32 ≤ i → i ≤ 47 → f = (v i).b ^^^ (v i).c ^^^ (v i).d ∧ g = (3 * i + 5) % 16) ∧
      (48 ≤ i → f = (v i).c ^^^ ((v i).b ||| ~~~(v i).d) ∧ g = (7 * i) % 16) ∧
      v (i + 1) = { a := (v i).d,
                    b := (v i).b + ((v i).a + f + md5T i + (md5Words block).getD g 0#32).rotateLeft (md5S i),
                    c := (v i).b, d := (v i).c }) ∧
    md5Block st block =
      { a := st.a + (v 64).a, b := st.b + (v 64).b, c := st.c + (v 64).c, d := st.d + (v 64).d }

/-- 44_legacy_token.md section 3: MD5 of the empty message and of "abc". -/
def Obligations.Md5KnownAnswers : Prop :=
  be (md5 []) = 0xd41d8cd98f00b204e9800998ecf8427e ∧
  be (md5 [0x61#8, 0x62#8, 0x63#8]) = 0x900150983cd24fb0d6963f7d28e17f72

/-- 44_legacy_token.md section 4: the source's scenario, keys "1  2" and "3   6" with the nonce 00 01 … 07, run as a command
word from reset. -/
def Obligations.LegacyTokenScenario : Prop :=
  ∃ t, step { State.reset with pending := [.issue {
      cmd := 0x0031#16
      opA := [0x31#8, 0x20#8, 0x20#8, 0x32#8]
      opB := [0x33#8, 0x20#8, 0x20#8, 0x20#8, 0x36#8]
      opC := [0x00#8, 0x01#8, 0x02#8, 0x03#8, 0x04#8, 0x05#8, 0x06#8, 0x07#8] }] } = .next t ∧
    t.result.status = 0x00#8 ∧ be t.result.out = 0x236A0F8C2CAEC3014DA2D0042C684550

/-! ## Accept key -/

/-- R220: ACCEPT_KEY on every operand and every SID: OUT is the base64 text of the SHA-1 digest of the key followed by the
GUID. -/
def Obligations.AcceptKeyResult : Prop :=
  ∀ (sid : BitVec 8) (s : State),
    (sid ≠ 0#8 → exec (.acceptKey sid) s = answers s (errorResult 0x11#8 0)) ∧
    (sid = 0#8 → s.cfg.maxOperand < s.opA.length → exec (.acceptKey sid) s = answers s (errorResult 0x11#8 1)) ∧
    (sid = 0#8 → s.opA.length ≤ s.cfg.maxOperand → 2 ^ 61 ≤ s.opA.length + 36 →
      exec (.acceptKey sid) s = answers s (errorResult 0x11#8 1)) ∧
    (sid = 0#8 → s.opA.length ≤ s.cfg.maxOperand → s.opA.length + 36 < 2 ^ 61 →
      exec (.acceptKey sid) s = answers s { Result.null with
        status := 0x00#8
        out := base64 (sha1 (s.opA ++
          "258EAFA5-E914-47DA-95CA-C5AB0DC85B11".toList.map fun ch => BitVec.ofNat 8 ch.toNat)) })

/-- 45_accept_key.md (output form): the accept key is 28 bytes and its last byte is `=`. -/
def Obligations.AcceptKeyIs28Bytes : Prop :=
  ∀ s : State, s.opA.length ≤ s.cfg.maxOperand → s.opA.length + 36 < 2 ^ 61 →
    ∃ t, exec (.acceptKey 0#8) s = .next t ∧ t.result.status = 0x00#8 ∧ t.result.out.length = 28 ∧
      t.result.out[27]? = some 0x3D#8

/-- R222: the padding of SHA-1 and its split into 64-byte blocks. -/
def Obligations.Sha1PaddingAndBlocks : Prop :=
  ∀ m : Bytes, 8 * m.length < 2 ^ 64 →
    (∃ k, sha1Padded m = m ++ [0x80#8] ++ List.replicate k 0#8 ++
        [BitVec.ofNat 8 (8 * m.length / 256 ^ 7), BitVec.ofNat 8 (8 * m.length / 256 ^ 6),
          BitVec.ofNat 8 (8 * m.length / 256 ^ 5), BitVec.ofNat 8 (8 * m.length / 256 ^ 4),
          BitVec.ofNat 8 (8 * m.length / 256 ^ 3), BitVec.ofNat 8 (8 * m.length / 256 ^ 2),
          BitVec.ofNat 8 (8 * m.length / 256), BitVec.ofNat 8 (8 * m.length)] ∧
      (m.length + 1 + k + 8) % 64 = 0 ∧ ∀ j < k, (m.length + 1 + j + 8) % 64 ≠ 0) ∧
    (blocks (sha1Padded m)).flatten = sha1Padded m ∧ (∀ b ∈ blocks (sha1Padded m), b.length = 64)

/-- R224: the message schedule of a block. -/
def Obligations.Sha1MessageSchedule : Prop :=
  ∀ b : Bytes, b.length = 64 → (sha1Schedule b).length = 80 ∧
    (∀ t < 16, ((sha1Schedule b).getD t 0#32).toNat =
      ((List.range 4).map fun k => (b.getD (4 * t + k) 0#8).toNat * 256 ^ (3 - k)).sum) ∧
    (∀ t, 16 ≤ t → t < 80 → (sha1Schedule b).getD t 0#32 =
      ((sha1Schedule b).getD (t - 3) 0#32 ^^^ (sha1Schedule b).getD (t - 8) 0#32 ^^^
        (sha1Schedule b).getD (t - 14) 0#32 ^^^ (sha1Schedule b).getD (t - 16) 0#32).rotateLeft 1)

/-- R225: the compression of a block: 80 rounds by the recurrence of the rule, and the sum with the state before. -/
def Obligations.Sha1CompressionRecurrence : Prop :=
  ∀ (st : Sha1State) (block : Bytes), ∃ v : Nat → Sha1State, v 0 = st ∧
    (∀ t < 80, ∃ f k : Word32,
      (t ≤ 19 → f = ((v t).b &&& (v t).c) ||| (~~~(v t).b &&& (v t).d) ∧ k = 0x5A827999#32) ∧
      (20 ≤ t → t ≤ 39 → f = (v t).b ^^^ (v t).c ^^^ (v t).d ∧ k = 0x6ED9EBA1#32) ∧
      (40 ≤ t → t ≤ 59 → f = ((v t).b &&& (v t).c) ||| ((v t).b &&& (v t).d) ||| ((v t).c &&& (v t).d) ∧
        k = 0x8F1BBCDC#32) ∧
      (60 ≤ t → f = (v t).b ^^^ (v t).c ^^^ (v t).d ∧ k = 0xCA62C1D6#32) ∧
      v (t + 1) = { a := (v t).a.rotateLeft 5 + f + (v t).e + k + (sha1Schedule block).getD t 0#32,
                    b := (v t).a, c := (v t).b.rotateLeft 30, d := (v t).c, e := (v t).d }) ∧
    sha1Block st block = { a := st.a + (v 80).a, b := st.b + (v 80).b, c := st.c + (v 80).c,
                           d := st.d + (v 80).d, e := st.e + (v 80).e }

/-- 45_accept_key.md (SHA-1 output): SHA-1 of the empty message and of "abc". -/
def Obligations.Sha1KnownAnswers : Prop :=
  be (sha1 []) = 0xda39a3ee5e6b4b0d3255bfef95601890afd80709 ∧
  be (sha1 [0x61#8, 0x62#8, 0x63#8]) = 0xa9993e364706816aba3e25717850c26c9cd0d89d

/-- R227: base64, group by group, with its alphabet and its padding. -/
def Obligations.Base64GroupsAndPadding : Prop :=
  ∀ (m : Bytes) (letters : Nat → Byte),
    (letters = fun v => ("ABCDEFGHIJKLMNOPQRSTUVWXYZabcdefghijklmnopqrstuvwxyz0123456789+/".toList.map
      fun ch => BitVec.ofNat 8 ch.toNat).getD v 0#8) →
    (base64 m).length = 4 * ((m.length + 2) / 3) ∧
    (∀ j v, 3 * j + 3 ≤ m.length →
      v = (m.getD (3 * j) 0#8).toNat * 65536 + (m.getD (3 * j + 1) 0#8).toNat * 256 + (m.getD (3 * j + 2) 0#8).toNat →
      ((base64 m).drop (4 * j)).take 4 =
        [letters (v / 2 ^ 18), letters (v / 2 ^ 12 % 64), letters (v / 2 ^ 6 % 64), letters (v % 64)]) ∧
    (∀ j v, 3 * j + 2 = m.length →
      v = (m.getD (3 * j) 0#8).toNat * 65536 + (m.getD (3 * j + 1) 0#8).toNat * 256 →
      (base64 m).drop (4 * j) =
        [letters (v / 2 ^ 18), letters (v / 2 ^ 12 % 64), letters (v / 2 ^ 6 % 64), 0x3D#8]) ∧
    (∀ j v, 3 * j + 1 = m.length → v = (m.getD (3 * j) 0#8).toNat * 65536 →
      (base64 m).drop (4 * j) = [letters (v / 2 ^ 18), letters (v / 2 ^ 12 % 64), 0x3D#8, 0x3D#8])

/-- 45_accept_key.md (corner cases and example): the source's worked example, run as a command word from reset. -/
def Obligations.AcceptKeyWorkedExample : Prop :=
  ∃ t, step { State.reset with pending := [.issue {
      cmd := 0x0040#16
      opA := "dGhlIHNhbXBsZSBub25jZQ==".toList.map fun ch => BitVec.ofNat 8 ch.toNat
      opB := []
      opC := [] }] } = .next t ∧
    t.result.status = 0x00#8 ∧
    t.result.out = "s3pPLMBiTxaQ9kYGzzhZRbK+xOo=".toList.map fun ch => BitVec.ofNat 8 ch.toNat

/-! ## The invariant -/

/-- 10_state.md sections 4 and 6: the state after reset of every legal build satisfies the invariant. The spec leaves RESULT
unspecified after reset: that the result record is sound there rests on the model's null record (notes/assumptions/4.md). -/
def Obligations.ResetSatisfiesTheInvariant : Prop :=
  ∀ (n : Nat) (cfg : Config) (actions : List HostAction), 1 ≤ n → n ≤ 256 → cfg.legal = true →
    (State.resetOf n cfg actions).inv = true

/-- 10_state.md sections 3 and 4: every step keeps the invariant, from every state that satisfies it: a legal build, contexts
that are IDLE and null, or OPEN with no fault, within their capacities and with a partial frame in PEND, or FAULTED with a
session fault's status and empty buffers, and a result record with a listed status and its information. The spec leaves RESULT
unspecified after a reset: that the record is sound after a reset step rests on the model's null record
(notes/assumptions/4.md, 6.md). That a header in PEND has passed the mask policy is inferred (notes/assumptions/14.md). -/
def Obligations.EveryStepKeepsTheInvariant : Prop :=
  ∀ s t : State, s.inv = true → step s = .next t → t.inv = true

/-! ## Digests of whole messages -/

/-- R201, and 44_legacy_token.md section 3 for the chain and the output: the digest of every message. The chaining state starts
at the initial state, each block of the padded message is compressed into it in order, and the digest is its four words, least
significant byte first. -/
def Obligations.Md5DigestOfEveryMessage : Prop :=
  ∀ m : Bytes, ∃ v : Nat → Md5State,
    v 0 = { a := 0x67452301#32, b := 0xEFCDAB89#32, c := 0x98BADCFE#32, d := 0x10325476#32 } ∧
    (∀ i (hi : i < (blocks (md5Padded m)).length), v (i + 1) = md5Block (v i) (blocks (md5Padded m))[i]) ∧
    (∀ n, n = (blocks (md5Padded m)).length →
      md5 m = [(v n).a, (v n).b, (v n).c, (v n).d].flatMap fun x =>
        [BitVec.ofNat 8 x.toNat, BitVec.ofNat 8 (x.toNat / 256), BitVec.ofNat 8 (x.toNat / 256 ^ 2),
          BitVec.ofNat 8 (x.toNat / 256 ^ 3)])

/-- 44_legacy_token.md section 3: the constants `T[0]` to `T[63]` of MD5, row by row as the spec's table has them, and the
rotation amounts `s[0]` to `s[63]`, which repeat in groups of four. -/
def Obligations.Md5ConstantsAndRotations : Prop :=
  (List.range 64).map md5T =
    [0xD76AA478#32, 0xE8C7B756#32, 0x242070DB#32, 0xC1BDCEEE#32, 0xF57C0FAF#32, 0x4787C62A#32, 0xA8304613#32, 0xFD469501#32] ++
    [0x698098D8#32, 0x8B44F7AF#32, 0xFFFF5BB1#32, 0x895CD7BE#32, 0x6B901122#32, 0xFD987193#32, 0xA679438E#32, 0x49B40821#32] ++
    [0xF61E2562#32, 0xC040B340#32, 0x265E5A51#32, 0xE9B6C7AA#32, 0xD62F105D#32, 0x02441453#32, 0xD8A1E681#32, 0xE7D3FBC8#32] ++
    [0x21E1CDE6#32, 0xC33707D6#32, 0xF4D50D87#32, 0x455A14ED#32, 0xA9E3E905#32, 0xFCEFA3F8#32, 0x676F02D9#32, 0x8D2A4C8A#32] ++
    [0xFFFA3942#32, 0x8771F681#32, 0x6D9D6122#32, 0xFDE5380C#32, 0xA4BEEA44#32, 0x4BDECFA9#32, 0xF6BB4B60#32, 0xBEBFBC70#32] ++
    [0x289B7EC6#32, 0xEAA127FA#32, 0xD4EF3085#32, 0x04881D05#32, 0xD9D4D039#32, 0xE6DB99E5#32, 0x1FA27CF8#32, 0xC4AC5665#32] ++
    [0xF4292244#32, 0x432AFF97#32, 0xAB9423A7#32, 0xFC93A039#32, 0x655B59C3#32, 0x8F0CCC92#32, 0xFFEFF47D#32, 0x85845DD1#32] ++
    [0x6FA87E4F#32, 0xFE2CE6E0#32, 0xA3014314#32, 0x4E0811A1#32, 0xF7537E82#32, 0xBD3AF235#32, 0x2AD7D2BB#32, 0xEB86D391#32] ∧
  (List.range 64).map md5S =
    (List.replicate 4 [7, 12, 17, 22]).flatten ++ (List.replicate 4 [5, 9, 14, 20]).flatten ++
      (List.replicate 4 [4, 11, 16, 23]).flatten ++ (List.replicate 4 [6, 10, 15, 21]).flatten

/-- R223, and 45_accept_key.md (SHA-1) for the chain and the output: the digest of every message below 2^64 bits. The chaining
state starts at the initial state, each block of the padded message is compressed into it in order, and the digest is its five
words, most significant byte first. -/
def Obligations.Sha1DigestOfEveryMessage : Prop :=
  ∀ m : Bytes, 8 * m.length < 2 ^ 64 → ∃ v : Nat → Sha1State,
    v 0 = { a := 0x67452301#32, b := 0xEFCDAB89#32, c := 0x98BADCFE#32, d := 0x10325476#32, e := 0xC3D2E1F0#32 } ∧
    (∀ i (hi : i < (blocks (sha1Padded m)).length), v (i + 1) = sha1Block (v i) (blocks (sha1Padded m))[i]) ∧
    (∀ n, n = (blocks (sha1Padded m)).length →
      sha1 m = [(v n).a, (v n).b, (v n).c, (v n).d, (v n).e].flatMap fun x =>
        [BitVec.ofNat 8 (x.toNat / 256 ^ 3), BitVec.ofNat 8 (x.toNat / 256 ^ 2), BitVec.ofNat 8 (x.toNat / 256),
          BitVec.ofNat 8 x.toNat])
end

