-- ==== Sys2Proof/Laws/Decode.lean ====
section
/-! SUPPORT. The command word as two fields, and what the decoder does with it (30_encoding.md R70 to R73). -/

namespace Sys2Proof

theorem opField_toNat (w : BitVec 16) : (opField w).toNat = w.toNat % 256 := by
  simp [opField]

theorem sidField_toNat (w : BitVec 16) : (sidField w).toNat = w.toNat / 256 := by
  have := w.isLt
  simp only [sidField, BitVec.extractLsb'_toNat, Nat.shiftRight_eq_div_pow]
  omega

theorem word_toNat (sid op : BitVec 8) : (sid ++ op : BitVec 16).toNat = 256 * sid.toNat + op.toNat := by
  rw [BitVec.toNat_append, ← Nat.shiftLeft_add_eq_or_of_lt op.isLt, Nat.shiftLeft_eq]
  omega

@[simp] theorem opField_append (sid op : BitVec 8) : opField (sid ++ op) = op := by
  apply BitVec.eq_of_toNat_eq
  have := op.isLt
  rw [opField_toNat, word_toNat]
  omega

@[simp] theorem sidField_append (sid op : BitVec 8) : sidField (sid ++ op) = sid := by
  apply BitVec.eq_of_toNat_eq
  have := op.isLt
  rw [sidField_toNat, word_toNat]
  omega

theorem sidField_append_opField (w : BitVec 16) : sidField w ++ opField w = w := by
  apply BitVec.eq_of_toNat_eq
  rw [word_toNat, sidField_toNat, opField_toNat]
  omega

/-- A decoded command carries the `SID` of its word. -/
theorem decode_sid {w : BitVec 16} {i : Instr} (h : decode w = .ok i) : i.sid = sidField w := by
  unfold decode at h
  simp only at h
  repeat' (split at h; · cases h; rfl)
  cases h

/-- A decoded command is the one of the word's `OP`. -/
theorem decode_opcode {w : BitVec 16} {i : Instr} (h : decode w = .ok i) : opcode i = opField w := by
  unfold decode at h
  simp only at h
  repeat' (split at h; · cases h; rename_i ho; exact ho.symm)
  cases h

/-- A word that is no command has an `OP` outside the table (30_encoding.md R72). -/
theorem decode_error {w : BitVec 16} {op : BitVec 8} (h : decode w = .error (.reservedOp op)) :
    op = opField w ∧
      op ∉ [0x01#8, 0x02#8, 0x03#8, 0x10#8, 0x11#8, 0x12#8, 0x13#8, 0x20#8, 0x30#8, 0x31#8, 0x40#8] := by
  unfold decode at h
  simp only at h
  repeat' (split at h; · cases h)
  cases h
  simp_all

/-- A well-formed command, as a proposition (30_encoding.md R73). -/
theorem wellFormed_iff (n : Nat) (i : Instr) :
    i.wellFormed n = true ↔ if i.isSession then i.sid.toNat < n else i.sid = 0#8 := by
  unfold Instr.wellFormed
  split <;> simp

end Sys2Proof
end

