-- ==== Sys2Proof/Laws/State.lean ====
section
/-! SUPPORT. One lemma per field of each state update and of each result a command builds, so that no later proof unfolds a record. -/

namespace Sys2Proof.Machine

@[simp] theorem finish_cfg (r : Result) (s : State) :
    (finish r s).cfg = s.cfg := rfl

@[simp] theorem finish_cmd (r : Result) (s : State) :
    (finish r s).cmd = s.cmd := rfl

@[simp] theorem finish_opA (r : Result) (s : State) :
    (finish r s).opA = s.opA := rfl

@[simp] theorem finish_opB (r : Result) (s : State) :
    (finish r s).opB = s.opB := rfl

@[simp] theorem finish_opC (r : Result) (s : State) :
    (finish r s).opC = s.opC := rfl

@[simp] theorem finish_result (r : Result) (s : State) :
    (finish r s).result = r := rfl

@[simp] theorem finish_resultValid (r : Result) (s : State) :
    (finish r s).resultValid = true := rfl

@[simp] theorem finish_ctxs (r : Result) (s : State) :
    (finish r s).ctxs = s.ctxs := rfl

@[simp] theorem finish_pending (r : Result) (s : State) :
    (finish r s).pending = s.pending := rfl

@[simp] theorem setCtx_cfg (sid : BitVec 8) (c : Ctx) (s : State) :
    (setCtx sid c s).cfg = s.cfg := rfl

@[simp] theorem setCtx_cmd (sid : BitVec 8) (c : Ctx) (s : State) :
    (setCtx sid c s).cmd = s.cmd := rfl

@[simp] theorem setCtx_opA (sid : BitVec 8) (c : Ctx) (s : State) :
    (setCtx sid c s).opA = s.opA := rfl

@[simp] theorem setCtx_opB (sid : BitVec 8) (c : Ctx) (s : State) :
    (setCtx sid c s).opB = s.opB := rfl

@[simp] theorem setCtx_opC (sid : BitVec 8) (c : Ctx) (s : State) :
    (setCtx sid c s).opC = s.opC := rfl

@[simp] theorem setCtx_result (sid : BitVec 8) (c : Ctx) (s : State) :
    (setCtx sid c s).result = s.result := rfl

@[simp] theorem setCtx_resultValid (sid : BitVec 8) (c : Ctx) (s : State) :
    (setCtx sid c s).resultValid = s.resultValid := rfl

@[simp] theorem setCtx_ctxs (sid : BitVec 8) (c : Ctx) (s : State) :
    (setCtx sid c s).ctxs = s.ctxs.set sid.toNat c := rfl

@[simp] theorem setCtx_pending (sid : BitVec 8) (c : Ctx) (s : State) :
    (setCtx sid c s).pending = s.pending := rfl

@[simp] theorem present_cfg (s : State) (c : Command) (later : List HostAction) :
    (present s c later).cfg = s.cfg := rfl

@[simp] theorem present_cmd (s : State) (c : Command) (later : List HostAction) :
    (present s c later).cmd = c.cmd := rfl

@[simp] theorem present_opA (s : State) (c : Command) (later : List HostAction) :
    (present s c later).opA = c.opA := rfl

@[simp] theorem present_opB (s : State) (c : Command) (later : List HostAction) :
    (present s c later).opB = c.opB := rfl

@[simp] theorem present_opC (s : State) (c : Command) (later : List HostAction) :
    (present s c later).opC = c.opC := rfl

@[simp] theorem present_result (s : State) (c : Command) (later : List HostAction) :
    (present s c later).result = s.result := rfl

@[simp] theorem present_resultValid (s : State) (c : Command) (later : List HostAction) :
    (present s c later).resultValid = s.resultValid := rfl

@[simp] theorem present_ctxs (s : State) (c : Command) (later : List HostAction) :
    (present s c later).ctxs = s.ctxs := rfl

@[simp] theorem present_pending (s : State) (c : Command) (later : List HostAction) :
    (present s c later).pending = later := rfl

@[simp] theorem resetBlock_cfg (s : State) (later : List HostAction) :
    (resetBlock s later).cfg = s.cfg := rfl

@[simp] theorem resetBlock_cmd (s : State) (later : List HostAction) :
    (resetBlock s later).cmd = 0#16 := rfl

@[simp] theorem resetBlock_opA (s : State) (later : List HostAction) :
    (resetBlock s later).opA = [] := rfl

@[simp] theorem resetBlock_opB (s : State) (later : List HostAction) :
    (resetBlock s later).opB = [] := rfl

@[simp] theorem resetBlock_opC (s : State) (later : List HostAction) :
    (resetBlock s later).opC = [] := rfl

@[simp] theorem resetBlock_result (s : State) (later : List HostAction) :
    (resetBlock s later).result = Result.null := rfl

@[simp] theorem resetBlock_resultValid (s : State) (later : List HostAction) :
    (resetBlock s later).resultValid = false := rfl

@[simp] theorem resetBlock_ctxs (s : State) (later : List HostAction) :
    (resetBlock s later).ctxs = List.replicate s.ctxs.length Ctx.idle := rfl

@[simp] theorem resetBlock_pending (s : State) (later : List HostAction) :
    (resetBlock s later).pending = later := rfl

@[simp] theorem statusResult_status (st : Status) (k : Nat) : (statusResult st k).status = statusCode st := rfl

@[simp] theorem statusResult_info (st : Status) (k : Nat) : (statusResult st k).info = k := rfl

@[simp] theorem statusResult_hFin (st : Status) (k : Nat) : (statusResult st k).hFin = 0#1 := rfl

@[simp] theorem statusResult_hRsv (st : Status) (k : Nat) : (statusResult st k).hRsv = 0#3 := rfl

@[simp] theorem statusResult_hOpc (st : Status) (k : Nat) : (statusResult st k).hOpc = 0#4 := rfl

@[simp] theorem statusResult_hMask (st : Status) (k : Nat) : (statusResult st k).hMask = 0#1 := rfl

@[simp] theorem statusResult_hPlen (st : Status) (k : Nat) : (statusResult st k).hPlen = 0#64 := rfl

@[simp] theorem statusResult_hHlen (st : Status) (k : Nat) : (statusResult st k).hHlen = 0#4 := rfl

@[simp] theorem statusResult_hKey (st : Status) (k : Nat) : (statusResult st k).hKey = [] := rfl

@[simp] theorem statusResult_out (st : Status) (k : Nat) : (statusResult st k).out = [] := rfl

@[simp] theorem statusResult_rem (st : Status) (k : Nat) : (statusResult st k).rem = [] := rfl

@[simp] theorem statusResult_val (st : Status) (k : Nat) : (statusResult st k).val = 0#32 := rfl

@[simp] theorem statusResult_msgs (st : Status) (k : Nat) : (statusResult st k).msgs = [] := rfl

@[simp] theorem statusResult_qState (st : Status) (k : Nat) : (statusResult st k).qState = 0#2 := rfl

@[simp] theorem statusResult_qVariant (st : Status) (k : Nat) : (statusResult st k).qVariant = 0#1 := rfl

@[simp] theorem statusResult_qFault (st : Status) (k : Nat) : (statusResult st k).qFault = 0#8 := rfl

@[simp] theorem statusResult_qPlen (st : Status) (k : Nat) : (statusResult st k).qPlen = 0 := rfl

@[simp] theorem statusResult_qAlen (st : Status) (k : Nat) : (statusResult st k).qAlen = 0 := rfl

@[simp] theorem withHeader_status (r : Result) (h : FrameHeader) : (withHeader r h).status = r.status := rfl

@[simp] theorem withHeader_info (r : Result) (h : FrameHeader) : (withHeader r h).info = r.info := rfl

@[simp] theorem withHeader_hFin (r : Result) (h : FrameHeader) : (withHeader r h).hFin = h.fin := rfl

@[simp] theorem withHeader_hRsv (r : Result) (h : FrameHeader) : (withHeader r h).hRsv = h.rsv := rfl

@[simp] theorem withHeader_hOpc (r : Result) (h : FrameHeader) : (withHeader r h).hOpc = h.opc := rfl

@[simp] theorem withHeader_hMask (r : Result) (h : FrameHeader) : (withHeader r h).hMask = h.masked := rfl

@[simp] theorem withHeader_hPlen (r : Result) (h : FrameHeader) : (withHeader r h).hPlen = h.pl := rfl

@[simp] theorem withHeader_hHlen (r : Result) (h : FrameHeader) : (withHeader r h).hHlen = BitVec.ofNat 4 h.hl := rfl

@[simp] theorem withHeader_hKey (r : Result) (h : FrameHeader) : (withHeader r h).hKey = h.key := rfl

@[simp] theorem withHeader_out (r : Result) (h : FrameHeader) : (withHeader r h).out = r.out := rfl

@[simp] theorem withHeader_rem (r : Result) (h : FrameHeader) : (withHeader r h).rem = r.rem := rfl

@[simp] theorem withHeader_val (r : Result) (h : FrameHeader) : (withHeader r h).val = r.val := rfl

@[simp] theorem withHeader_msgs (r : Result) (h : FrameHeader) : (withHeader r h).msgs = r.msgs := rfl

@[simp] theorem withHeader_qState (r : Result) (h : FrameHeader) : (withHeader r h).qState = r.qState := rfl

@[simp] theorem withHeader_qVariant (r : Result) (h : FrameHeader) : (withHeader r h).qVariant = r.qVariant := rfl

@[simp] theorem withHeader_qFault (r : Result) (h : FrameHeader) : (withHeader r h).qFault = r.qFault := rfl

@[simp] theorem withHeader_qPlen (r : Result) (h : FrameHeader) : (withHeader r h).qPlen = r.qPlen := rfl

@[simp] theorem withHeader_qAlen (r : Result) (h : FrameHeader) : (withHeader r h).qAlen = r.qAlen := rfl

end Sys2Proof.Machine
end

