-- ==== Sys2Proof/Laws/Ops.lean ====
section
/-! SUPPORT. What the shared operations do: bounded reads, byte order, the unmasker, the context file. -/

namespace Sys2Proof.Machine

theorem memRead_ok {b : Bytes} {off n : Nat} (h : off + n ≤ b.length) :
    memRead b off n = .ok ((b.drop off).take n) := by
  simp [memRead, h]

theorem memReadByte_ok {b : Bytes} {off : Nat} (h : off < b.length) :
    memReadByte b off = .ok b[off] := by
  simp [memReadByte, List.getElem?_eq_getElem h]

@[simp] theorem orFault_ok {α : Type} (a : α) (k : α → Host.Outcome State Fault Refusal) :
    orFault (.ok a) k = k a := rfl

/-! Byte order (00_scope.md R15). -/

theorem be_foldl (b : Bytes) (a : Nat) :
    b.foldl (fun a x => a * 256 + x.toNat) a = a * 256 ^ b.length + be b := by
  induction b generalizing a with
  | nil => simp [be]
  | cons x b ih =>
    have h : be (x :: b) = (0 * 256 + x.toNat) * 256 ^ b.length + be b := ih _
    rw [List.foldl_cons, ih, h, List.length_cons]
    ring

@[simp] theorem be_nil : be [] = 0 := rfl

theorem be_cons (x : Byte) (b : Bytes) : be (x :: b) = x.toNat * 256 ^ b.length + be b := by
  have h := be_foldl b (0 * 256 + x.toNat)
  simpa [be] using h

theorem be_append (a b : Bytes) : be (a ++ b) = be a * 256 ^ b.length + be b := by
  simp only [be, List.foldl_append]
  exact be_foldl b _

theorem be_lt (b : Bytes) : be b < 256 ^ b.length := by
  induction b with
  | nil => simp
  | cons x b ih =>
    have hx : x.toNat < 256 := x.isLt
    rw [be_cons, List.length_cons, pow_succ]
    nlinarith [Nat.pos_of_ne_zero (pow_ne_zero b.length (by decide : (256 : Nat) ≠ 0))]

@[simp] theorem beBytes_length (v n : Nat) : (beBytes v n).length = n := by
  induction n with
  | zero => rfl
  | succ n ih => simp [beBytes, ih]

@[simp] theorem leBytes_length (v n : Nat) : (leBytes v n).length = n := by
  induction n generalizing v with
  | zero => rfl
  | succ n ih => simp [leBytes, ih]

theorem be_beBytes (v n : Nat) : be (beBytes v n) = v % 256 ^ n := by
  induction n with
  | zero => simp [beBytes, Nat.mod_one]
  | succ n ih =>
    have h : v % 256 ^ (n + 1) = v % 256 ^ n + 256 ^ n * (v / 256 ^ n % 256) := by
      rw [pow_succ, Nat.mod_mul]
    rw [beBytes, be_cons, ih, beBytes_length, BitVec.toNat_ofNat, h]
    ring

theorem be_beBytes_of_lt {v n : Nat} (h : v < 256 ^ n) : be (beBytes v n) = v := by
  rw [be_beBytes, Nat.mod_eq_of_lt h]

theorem le_cons (x : Byte) (b : Bytes) : le (x :: b) = x.toNat + 256 * le b := rfl

theorem le_lt (b : Bytes) : le b < 256 ^ b.length := by
  induction b with
  | nil => simp [le]
  | cons x b ih =>
    have hx : x.toNat < 256 := x.isLt
    rw [le_cons, List.length_cons, pow_succ]
    omega

/-! The unmasker (41_unmask.md R130, R132). -/

@[simp] theorem unmaskFrom_length (key p : Bytes) (k : Nat) : (unmaskFrom key k p).length = p.length := by
  induction p generalizing k with
  | nil => rfl
  | cons x p ih => simp [unmaskFrom, ih]

@[simp] theorem unmask_length (p key : Bytes) : (unmask p key).length = p.length := by
  simp [unmask]

theorem unmaskFrom_getElem? (key p : Bytes) (k j : Nat) :
    (unmaskFrom key k p)[j]? = p[j]?.map (· ^^^ key.getD ((k + j) % 4) 0#8) := by
  induction p generalizing k j with
  | nil => simp [unmaskFrom]
  | cons x p ih =>
    cases j with
    | zero => simp [unmaskFrom]
    | succ j => simp [unmaskFrom, ih, Nat.add_comm, Nat.add_left_comm]

theorem unmask_getElem? (p key : Bytes) (j : Nat) :
    (unmask p key)[j]? = p[j]?.map (· ^^^ key.getD (j % 4) 0#8) := by
  simp [unmask, unmaskFrom_getElem?]

theorem unmaskFrom_unmaskFrom (key p : Bytes) (k : Nat) : unmaskFrom key k (unmaskFrom key k p) = p := by
  induction p generalizing k with
  | nil => rfl
  | cons x p ih => simp [unmaskFrom, ih]

theorem unmask_unmask (p key : Bytes) : unmask (unmask p key) key = p :=
  unmaskFrom_unmaskFrom key p 0

/-! The context file (10_state.md R30, R36). -/

theorem ctxAt_eq_none {s : State} {sid : BitVec 8} : ctxAt s sid = none ↔ s.ctxs.length ≤ sid.toNat := by
  simp [ctxAt]

theorem ctxAt_lt {s : State} {sid : BitVec 8} {c : Ctx} (h : ctxAt s sid = some c) : sid.toNat < s.ctxs.length := by
  by_contra hn
  rw [ctxAt_eq_none.mpr (by omega)] at h
  cases h

@[simp] theorem ctxAt_finish (r : Result) (s : State) (sid : BitVec 8) : ctxAt (finish r s) sid = ctxAt s sid := rfl

theorem ctxAt_setCtx_self {s : State} {sid : BitVec 8} (h : sid.toNat < s.ctxs.length) (c : Ctx) :
    ctxAt (setCtx sid c s) sid = some c := by
  simp [ctxAt, h]

theorem ctxs_setCtx_ne {s : State} {sid : BitVec 8} {c : Ctx} {k : Nat} (h : k ≠ sid.toNat) :
    (setCtx sid c s).ctxs[k]? = s.ctxs[k]? := by
  simp [List.getElem?_set_ne (Ne.symm h)]

end Sys2Proof.Machine
end

