-- ==== Sys2Proof/Laws/Digest.lean ====
section
/-! SUPPORT. What the shared parts of the two digests do: padding, blocks, rounds, output lengths. -/

namespace Sys2Proof.Machine

/-- `padZeros` is the least count of zeros that fills the last block (44_legacy_token.md R200, 45_accept_key.md R222). -/
theorem padZeros_least (n : Nat) :
    (n + 1 + padZeros n + 8) % 64 = 0 ∧ ∀ j < padZeros n, (n + 1 + j + 8) % 64 ≠ 0 := by
  unfold padZeros
  exact ⟨by omega, fun j hj => by omega⟩

theorem padded_length (m lengthField : Bytes) :
    (padded m lengthField).length = m.length + 1 + padZeros m.length + lengthField.length := by
  simp only [padded, List.length_append, List.length_cons, List.length_replicate]
  omega

theorem padded_length_mod {m lengthField : Bytes} (h : lengthField.length = 8) :
    (padded m lengthField).length % 64 = 0 := by
  rw [padded_length, h]
  exact (padZeros_least m.length).1

/-- The blocks of a sequence of whole blocks are the sequence. -/
theorem blocks_flatten {m : Bytes} (h : m.length % 64 = 0) : (blocks m).flatten = m := by
  obtain ⟨n, hn⟩ : ∃ n, m.length = 64 * n := ⟨m.length / 64, by omega⟩
  have hd : m.length / 64 = n := by omega
  unfold blocks
  rw [hd]
  clear h hd
  induction n generalizing m with
  | zero =>
    obtain rfl : m = [] := List.length_eq_zero_iff.mp (by omega)
    rfl
  | succ n ih =>
    have he : ((fun i => (m.drop (64 * i)).take 64) ∘ Nat.succ) = fun i => ((m.drop 64).drop (64 * i)).take 64 := by
      funext i
      simp [Nat.mul_succ, Nat.add_comm]
    rw [List.range_succ_eq_map, List.map_cons, List.flatten_cons, List.map_map, he, ih (by simp; omega)]
    simp

theorem blocks_length {m b : Bytes} (hb : b ∈ blocks m) : b.length = 64 := by
  simp only [blocks, List.mem_map, List.mem_range] at hb
  obtain ⟨i, hi, rfl⟩ := hb
  simp only [List.length_take, List.length_drop]
  omega

theorem wordBytes_length {block : Bytes} {j : Nat} (h : 4 * j + 4 ≤ block.length) : (wordBytes block j).length = 4 := by
  simp only [wordBytes, List.length_take, List.length_drop]
  omega

/-- Rounds in order: the state after `n` of them. -/
def roundsFrom {α : Type} (round : α → Nat → α) (st : α) : Nat → α
  | 0 => st
  | n + 1 => round (roundsFrom round st n) n

theorem foldl_range_eq_roundsFrom {α : Type} (round : α → Nat → α) (st : α) (n : Nat) :
    (List.range n).foldl round st = roundsFrom round st n := by
  induction n with
  | zero => rfl
  | succ n ih => rw [List.range_succ, List.foldl_append, ih]; rfl

/-- The chaining state after the first `n` blocks. -/
def chainFrom {α β : Type} (compress : α → β → α) (st : α) (l : List β) (n : Nat) : α := (l.take n).foldl compress st

@[simp] theorem chainFrom_zero {α β : Type} (compress : α → β → α) (st : α) (l : List β) :
    chainFrom compress st l 0 = st := rfl

theorem chainFrom_succ {α β : Type} (compress : α → β → α) (st : α) (l : List β) (n : Nat) (h : n < l.length) :
    chainFrom compress st l (n + 1) = compress (chainFrom compress st l n) l[n] := by
  rw [chainFrom, List.take_succ_eq_append_getElem h, List.foldl_append]
  rfl

theorem chainFrom_length {α β : Type} (compress : α → β → α) (st : α) (l : List β) :
    chainFrom compress st l l.length = l.foldl compress st := by
  rw [chainFrom, List.take_length]

/-- Extending a schedule keeps what is there (45_accept_key.md R224). -/
theorem sha1Extend_eq_append (n : Nat) (w : List Word32) : ∃ x, sha1Extend n w = x ++ w ∧ x.length = n := by
  induction n generalizing w with
  | zero => exact ⟨[], rfl, rfl⟩
  | succ n ih =>
    obtain ⟨x, hx, hl⟩ := ih (rotl (w.getD 2 0#32 ^^^ w.getD 7 0#32 ^^^ w.getD 13 0#32 ^^^ w.getD 15 0#32) 1 :: w)
    refine ⟨x ++ [rotl (w.getD 2 0#32 ^^^ w.getD 7 0#32 ^^^ w.getD 13 0#32 ^^^ w.getD 15 0#32) 1], ?_, by simp [hl]⟩
    rw [sha1Extend, hx]
    simp

theorem md5_length (m : Bytes) : (md5 m).length = 16 := by simp [md5]

theorem sha1_length (m : Bytes) : (sha1 m).length = 20 := by simp [sha1]

theorem guid_length : guid.length = 36 := rfl

end Sys2Proof.Machine
end

