-- ==== Sys2Proof/Laws/Frame.lean ====
section
/-! SUPPORT. What the header decoder and the payload reader do, once: they never read past the buffer, and what they answer. -/

namespace Sys2Proof.Machine

/-! The fields of byte 1 (30_encoding.md R76, R77, R80). -/

theorem extOf_mem (len : BitVec 7) : extOf len = 0 ∨ extOf len = 2 ∨ extOf len = 8 := by
  unfold extOf
  split
  · exact .inl rfl
  · split
    · exact .inr (.inl rfl)
    · exact .inr (.inr rfl)

theorem maskedOf_cases (b1 : Byte) : (maskedOf b1).toNat = 0 ∨ (maskedOf b1).toNat = 1 := by
  have := (maskedOf b1).isLt
  omega

theorem headerLenOf_mem (b1 : Byte) : headerLenOf b1 ∈ [2, 4, 6, 8, 10, 14] := by
  rcases extOf_mem (baseLenOf b1) with h | h | h <;> rcases maskedOf_cases b1 with h' | h' <;>
    simp [headerLenOf, h, h']

theorem headerLenOf_ge (b1 : Byte) : 2 ≤ headerLenOf b1 := by
  unfold headerLenOf
  omega

theorem headerLenOf_le (b1 : Byte) : headerLenOf b1 ≤ 14 := by
  have := headerLenOf_mem b1
  simp only [List.mem_cons, List.not_mem_nil, or_false] at this
  omega

/-! The decoder (40_frame_decode.md R101 to R107). -/

/-- The header that bytes `b0`, `b1` and what follows them hold (40_frame_decode.md R103 to R107). -/
def headerOf (b0 b1 : Byte) (more : Bytes) : FrameHeader where
  fin := finOf b0
  rsv := rsvOf b0
  opc := opcOf b0
  masked := maskedOf b1
  pl :=
    if extOf (baseLenOf b1) = 0 then (baseLenOf b1).setWidth 64
    else BitVec.ofNat 64 (be (more.take (extOf (baseLenOf b1))))
  hl := headerLenOf b1
  key := (more.drop (extOf (baseLenOf b1))).take (4 * (maskedOf b1).toNat)

theorem decodeHeader_lt_two {b : Bytes} (h : b.length < 2) : decodeHeader b = .ok (.needMore (2 - b.length)) := by
  simp [decodeHeader, h]

theorem decodeHeader_cons (b0 b1 : Byte) (more : Bytes) :
    decodeHeader (b0 :: b1 :: more) =
      .ok (if more.length + 2 < headerLenOf b1 then .needMore (headerLenOf b1 - (more.length + 2))
           else .header (headerOf b0 b1 more)) := by
  have h0 : memReadByte (b0 :: b1 :: more) 0 = .ok b0 := rfl
  have h1 : memReadByte (b0 :: b1 :: more) 1 = .ok b1 := rfl
  simp only [decodeHeader, h0, h1, decodeFields, List.length_cons]
  rw [if_neg (by omega)]
  split
  · rfl
  · rename_i hn
    have hh : headerLenOf b1 = 2 + extOf (baseLenOf b1) + 4 * (maskedOf b1).toNat := rfl
    rw [memRead_ok (by simp; omega), memRead_ok (by simp; omega)]
    simp [headerOf, Nat.add_comm 2]

/-- `DecodeHeader` answers on every buffer (40_frame_decode.md R111). -/
theorem decodeHeader_total (b : Bytes) : ∃ d, decodeHeader b = .ok d := by
  match b with
  | [] => exact ⟨_, decodeHeader_lt_two (by simp)⟩
  | [_] => exact ⟨_, decodeHeader_lt_two (by simp)⟩
  | b0 :: b1 :: more => exact ⟨_, decodeHeader_cons b0 b1 more⟩

/-- A decoded header comes from a buffer that holds it whole. -/
theorem decodeHeader_header {b : Bytes} {h : FrameHeader} (hd : decodeHeader b = .ok (.header h)) :
    ∃ b0 b1 more, b = b0 :: b1 :: more ∧ h = headerOf b0 b1 more ∧ headerLenOf b1 ≤ more.length + 2 := by
  match b with
  | [] => simp [decodeHeader_lt_two] at hd
  | [_] => simp [decodeHeader_lt_two] at hd
  | b0 :: b1 :: more =>
    rw [decodeHeader_cons] at hd
    split at hd
    · simp at hd
    · simp only [Except.ok.injEq, Decoded.header.injEq] at hd
      exact ⟨b0, b1, more, rfl, hd.symm, by omega⟩

theorem headerOf_key_length {b0 b1 : Byte} {more : Bytes} (h : headerLenOf b1 ≤ more.length + 2) :
    (headerOf b0 b1 more).key.length = 4 * (maskedOf b1).toNat := by
  unfold headerLenOf at h
  simp [headerOf]
  omega

theorem headerOf_append {b0 b1 : Byte} {more : Bytes} (x : Bytes) (h : headerLenOf b1 ≤ more.length + 2) :
    headerOf b0 b1 (more ++ x) = headerOf b0 b1 more := by
  unfold headerLenOf at h
  simp only [headerOf]
  rw [List.take_append_of_le_length (by omega), List.drop_append_of_le_length (by omega),
    List.take_append_of_le_length (by simp; omega)]

/-- The facts of a decoded header (40_frame_decode.md R100, R105, R107). -/
theorem decodeHeader_facts {b : Bytes} {h : FrameHeader} (hd : decodeHeader b = .ok (.header h)) :
    h.hl ∈ [2, 4, 6, 8, 10, 14] ∧ h.hl ≤ b.length ∧ h.key.length = 4 * h.masked.toNat := by
  obtain ⟨b0, b1, more, rfl, rfl, hl⟩ := decodeHeader_header hd
  exact ⟨headerLenOf_mem b1, by simpa [headerOf] using hl, headerOf_key_length hl⟩

theorem decodeHeader_hl_pos {b : Bytes} {h : FrameHeader} (hd : decodeHeader b = .ok (.header h)) :
    2 ≤ h.hl ∧ 2 ≤ frameLen h := by
  obtain ⟨b0, b1, more, rfl, rfl, hl⟩ := decodeHeader_header hd
  have : 2 ≤ (headerOf b0 b1 more).hl := headerLenOf_ge b1
  exact ⟨this, by unfold frameLen; omega⟩

/-- Bytes after a header do not change what it decodes to. -/
theorem decodeHeader_append {b : Bytes} {h : FrameHeader} (x : Bytes) (hd : decodeHeader b = .ok (.header h)) :
    decodeHeader (b ++ x) = .ok (.header h) := by
  obtain ⟨b0, b1, more, rfl, rfl, hl⟩ := decodeHeader_header hd
  rw [List.cons_append, List.cons_append, decodeHeader_cons, headerOf_append x hl, if_neg]
  simp
  omega

theorem decodeHeader_needMore_pos {b : Bytes} {k : Nat} (hd : decodeHeader b = .ok (.needMore k)) : 1 ≤ k := by
  match b with
  | [] => simp [decodeHeader_lt_two] at hd; omega
  | [_] => simp [decodeHeader_lt_two] at hd; omega
  | b0 :: b1 :: more =>
    rw [decodeHeader_cons] at hd
    split at hd <;> simp at hd
    omega

theorem decodeHeader_needMore_le {b : Bytes} {k : Nat} (hd : decodeHeader b = .ok (.needMore k)) : k ≤ 14 := by
  match b with
  | [] => simp [decodeHeader_lt_two] at hd; omega
  | [_] => simp [decodeHeader_lt_two] at hd; omega
  | b0 :: b1 :: more =>
    rw [decodeHeader_cons] at hd
    have := headerLenOf_le b1
    split at hd <;> simp at hd
    omega

/-! The payload (40_frame_decode.md R109, 42_session.md R146). -/

theorem framePayload_ok {b : Bytes} {h : FrameHeader} (hl : frameLen h ≤ b.length) :
    framePayload b h =
      .ok (if h.masked = 1#1 then unmask ((b.drop h.hl).take h.pl.toNat) h.key
           else (b.drop h.hl).take h.pl.toNat) := by
  simp [framePayload, memRead_ok hl]

/-- The payload of a frame that has arrived whole. -/
def payloadOf (b : Bytes) (h : FrameHeader) : Bytes :=
  if h.masked = 1#1 then unmask ((b.drop h.hl).take h.pl.toNat) h.key else (b.drop h.hl).take h.pl.toNat

theorem framePayload_eq {b : Bytes} {h : FrameHeader} (hl : frameLen h ≤ b.length) :
    framePayload b h = .ok (payloadOf b h) := framePayload_ok hl

theorem payloadOf_length {b : Bytes} {h : FrameHeader} (hl : frameLen h ≤ b.length) :
    (payloadOf b h).length = h.pl.toNat := by
  unfold frameLen at hl
  unfold payloadOf
  split <;> simp <;> omega

theorem payloadOf_append {b : Bytes} {h : FrameHeader} (x : Bytes) (hl : frameLen h ≤ b.length) :
    payloadOf (b ++ x) h = payloadOf b h := by
  unfold frameLen at hl
  unfold payloadOf
  rw [List.drop_append_of_le_length (by omega), List.take_append_of_le_length (by simp; omega)]

end Sys2Proof.Machine
end

