-- ==== Sys2Proof/Laws/Operands.lean ====
section
/-! SUPPORT. What the common command checks do (60_exceptions.md R254, R259). -/

namespace Sys2Proof.Machine

@[simp] theorem overlong_nil (m : Nat) : overlong m [] = none := rfl

theorem overlong_cons_of_le {m k : Nat} {b : Bytes} {used : List (Nat × Bytes)} (h : b.length ≤ m) :
    overlong m ((k, b) :: used) = overlong m used := by
  simp [overlong, Nat.not_lt.mpr h]

theorem overlong_cons_of_lt {m k : Nat} {b : Bytes} {used : List (Nat × Bytes)} (h : m < b.length) :
    overlong m ((k, b) :: used) = some k := by
  simp [overlong, h]

/-- No used operand is overlong exactly when each fits `MAX_OPERAND`. -/
theorem overlong_eq_none {m : Nat} {used : List (Nat × Bytes)} :
    overlong m used = none ↔ ∀ p ∈ used, p.2.length ≤ m := by
  induction used with
  | nil => simp
  | cons p used ih =>
    obtain ⟨k, b⟩ := p
    by_cases h : m < b.length
    · simp [overlong_cons_of_lt h, h]
    · simp [overlong_cons_of_le (Nat.not_lt.mp h), ih, Nat.not_lt.mp h]

/-- An overlong operand is one the command uses. -/
theorem overlong_mem {m k : Nat} {used : List (Nat × Bytes)} (h : overlong m used = some k) :
    k ∈ used.map Prod.fst := by
  induction used with
  | nil => simp at h
  | cons p used ih =>
    obtain ⟨j, b⟩ := p
    by_cases hb : m < b.length
    · rw [overlong_cons_of_lt hb] at h
      simp_all
    · rw [overlong_cons_of_le (Nat.not_lt.mp hb)] at h
      simp [ih h]

/-- A command that is no session command runs its body when its checks pass. -/
theorem plainCommand_ok {used : List (Nat × Bytes)} {s : State} {body : Host.Outcome State Fault Refusal}
    (h : ∀ p ∈ used, p.2.length ≤ s.cfg.maxOperand) : plainCommand 0#8 used s body = body := by
  simp [plainCommand, overlong_eq_none.mpr h]

/-- What a command that is no session command can do: raise `E_BAD_OPERAND`, or run its body. -/
theorem plainCommand_elim {P : Host.Outcome State Fault Refusal → Prop} {sid : BitVec 8} {used : List (Nat × Bytes)}
    {s : State} {body : Host.Outcome State Fault Refusal}
    (bad : ∀ k, k ∈ 0 :: used.map Prod.fst → P (raise .badOperand k s))
    (run : sid = 0#8 → overlong s.cfg.maxOperand used = none → P body) : P (plainCommand sid used s body) := by
  unfold plainCommand
  split
  · exact bad 0 (by simp)
  · rename_i h
    split
    · rename_i k hk
      exact bad k (List.mem_cons_of_mem _ (overlong_mem hk))
    · exact run (by simpa using h) ‹_›

/-- A session command runs its body on its context when its checks pass. -/
theorem sessionCommand_ok {sid : BitVec 8} {used : List (Nat × Bytes)} {s : State} {c : Ctx}
    {body : Ctx → Host.Outcome State Fault Refusal} (hc : ctxAt s sid = some c)
    (h : ∀ p ∈ used, p.2.length ≤ s.cfg.maxOperand) : sessionCommand sid used s body = body c := by
  simp [sessionCommand, hc, overlong_eq_none.mpr h]

/-- What a session command can do: raise `E_BAD_OPERAND`, or run its body on the context its SID names. -/
theorem sessionCommand_elim {P : Host.Outcome State Fault Refusal → Prop} {sid : BitVec 8} {used : List (Nat × Bytes)}
    {s : State} {body : Ctx → Host.Outcome State Fault Refusal}
    (bad : ∀ k, k ∈ 0 :: used.map Prod.fst → P (raise .badOperand k s))
    (run : ∀ c, ctxAt s sid = some c → overlong s.cfg.maxOperand used = none → P (body c)) :
    P (sessionCommand sid used s body) := by
  unfold sessionCommand
  split
  · exact bad 0 (by simp)
  · rename_i c h
    split
    · rename_i k hk
      exact bad k (List.mem_cons_of_mem _ (overlong_mem hk))
    · exact run c h ‹_›

end Sys2Proof.Machine
end

