-- ==== Sys2Proof/Laws/Session.lean ====
section
/-! SUPPORT. What the loop of SESSION_FEED does, once (42_session.md R149): one pass, its termination, and how it treats a stream that arrives in pieces. -/

namespace Sys2Proof.Machine

theorem capAdmits_zero (c : Cap) : capAdmits c 0 = true := by
  cases c <;> simp [capAdmits]

/-- A stream that starts with a complete frame the session accepts (42_session.md R152, R145). -/
def CompleteFrame (v : Variant) (rest : Bytes) (h : FrameHeader) : Prop :=
  decodeHeader rest = .ok (.header h) ∧ ¬(h.masked = 0#1 ∧ v = .modern) ∧ frameLen h ≤ rest.length

/-- The accumulator and the messages after a complete frame (42_session.md R146, R147). -/
def afterFrame (h : FrameHeader) (p acc : Bytes) (msgs : List Bytes) : Bytes × List Bytes :=
  if h.fin = 1#1 then ([], msgs ++ [acc ++ p]) else (acc ++ p, msgs)

theorem CompleteFrame.append {v : Variant} {rest : Bytes} {h : FrameHeader} (x : Bytes)
    (hf : CompleteFrame v rest h) : CompleteFrame v (rest ++ x) h := by
  obtain ⟨hd, hm, hl⟩ := hf
  exact ⟨decodeHeader_append x hd, hm, by simp; omega⟩

theorem CompleteFrame.two_le {v : Variant} {rest : Bytes} {h : FrameHeader} (hf : CompleteFrame v rest h) :
    2 ≤ frameLen h := (decodeHeader_hl_pos hf.1).2

/-! One pass. -/

variable {cfg : Config} {v : Variant} {passes off : Nat} {rest acc : Bytes} {msgs : List Bytes}

theorem feedLoop_nil : feedLoop cfg v (passes + 1) off [] acc msgs = .ok (.done [] acc msgs) := rfl

theorem feedLoop_partial (hne : rest ≠ []) (hp : partialFrame v rest = true) :
    feedLoop cfg v (passes + 1) off rest acc msgs = .ok (feedStore cfg rest acc msgs) := by
  have hl : rest.length ≠ 0 := by simpa using hne
  obtain ⟨d, hd⟩ := decodeHeader_total rest
  rw [feedLoop, if_neg hl, hd]
  cases d with
  | needMore k => rfl
  | header h =>
    simp only [partialFrame, hd, Bool.and_eq_true, decide_eq_true_eq, Bool.not_eq_true', Bool.and_eq_false_iff,
      decide_eq_false_iff_not] at hp
    simp only
    rw [if_neg (by tauto), if_pos hp.1]

theorem feedLoop_violation {h : FrameHeader} (hd : decodeHeader rest = .ok (.header h))
    (hm : h.masked = 0#1 ∧ v = .modern) :
    feedLoop cfg v (passes + 1) off rest acc msgs = .ok (.faulted .protocolViolation off msgs) := by
  have hl : rest.length ≠ 0 := by
    have := decodeHeader_facts hd
    have := decodeHeader_hl_pos hd
    omega
  rw [feedLoop, if_neg hl, hd]
  simp only
  rw [if_pos hm]

theorem feedLoop_frame {h : FrameHeader} (hf : CompleteFrame v rest h) :
    feedLoop cfg v (passes + 1) off rest acc msgs =
      if capAdmits cfg.accCap (acc.length + h.pl.toNat) then
        feedLoop cfg v passes (off + frameLen h) (rest.drop (frameLen h))
          (afterFrame h (payloadOf rest h) acc msgs).1 (afterFrame h (payloadOf rest h) acc msgs).2
      else .ok (.faulted .bufferOverflow 2 msgs) := by
  have h2 := hf.two_le
  obtain ⟨hd, hm, hlen⟩ := hf
  have hl : rest.length ≠ 0 := by omega
  rw [feedLoop, if_neg hl, hd]
  simp only
  rw [if_neg hm, if_neg (by omega), framePayload_eq hlen]
  simp only [payloadOf_length hlen]
  congr 1
  unfold afterFrame
  split <;> rfl

/-- What a non-empty stream starts with: a partial frame, an unmasked frame on a modern session, or a complete frame. -/
theorem stream_cases (v : Variant) (rest : Bytes) :
    partialFrame v rest = true ∨
    (∃ h, decodeHeader rest = .ok (.header h) ∧ h.masked = 0#1 ∧ v = .modern) ∨
    (∃ h, CompleteFrame v rest h) := by
  obtain ⟨d, hd⟩ := decodeHeader_total rest
  cases d with
  | needMore k => exact .inl (by simp [partialFrame, hd])
  | header h =>
    by_cases hm : h.masked = 0#1 ∧ v = .modern
    · exact .inr (.inl ⟨h, hd, hm⟩)
    · by_cases hl : rest.length < frameLen h
      · refine .inl ?_
        simp only [partialFrame, hd, hl, decide_true, Bool.true_and, Bool.not_eq_true', Bool.and_eq_false_iff,
          decide_eq_false_iff_not]
        tauto
      · exact .inr (.inr ⟨h, hd, hm, by omega⟩)

/-! The bound on the passes (42_session.md R148). -/

/-- A feed never runs out of passes, and more passes change nothing. -/
theorem feedLoop_fuel (cfg : Config) (v : Variant) (p q off : Nat) (rest acc : Bytes) (msgs : List Bytes)
    (hp : rest.length / 2 + 1 ≤ p) (hq : rest.length / 2 + 1 ≤ q) :
    ∃ e, feedLoop cfg v p off rest acc msgs = .ok e ∧ feedLoop cfg v q off rest acc msgs = .ok e := by
  induction p generalizing q off rest acc msgs with
  | zero => omega
  | succ p ih =>
    obtain ⟨q, rfl⟩ : ∃ q', q = q' + 1 := ⟨q - 1, by omega⟩
    by_cases hne : rest = []
    · subst hne
      exact ⟨_, rfl, rfl⟩
    rcases stream_cases v rest with hpart | ⟨h, hd, hm⟩ | ⟨h, hf⟩
    · exact ⟨_, feedLoop_partial hne hpart, feedLoop_partial hne hpart⟩
    · exact ⟨_, feedLoop_violation hd hm, feedLoop_violation hd hm⟩
    · rw [feedLoop_frame hf, feedLoop_frame hf]
      split
      · have h2 := hf.two_le
        have hl := hf.2.2
        exact ih _ _ _ _ _ (by simp; omega) (by simp; omega)
      · exact ⟨_, rfl, rfl⟩

/-- The loop with the passes R148 gives it. -/
def feedFrom (cfg : Config) (v : Variant) (off : Nat) (rest acc : Bytes) (msgs : List Bytes) : Except Fault FeedEnd :=
  feedLoop cfg v (feedPasses rest.length) off rest acc msgs

theorem feedFrom_total (cfg : Config) (v : Variant) (off : Nat) (rest acc : Bytes) (msgs : List Bytes) :
    ∃ e, feedFrom cfg v off rest acc msgs = .ok e := by
  obtain ⟨e, he, _⟩ := feedLoop_fuel cfg v (feedPasses rest.length) (feedPasses rest.length) off rest acc msgs
    (Nat.le_refl _) (Nat.le_refl _)
  exact ⟨e, he⟩

theorem feed_eq_feedFrom (cfg : Config) (c : Ctx) (chunk : Bytes) :
    feed cfg c chunk = feedFrom cfg c.variant 0 (c.pend ++ chunk) c.acc [] := rfl

@[simp] theorem feedFrom_nil : feedFrom cfg v off [] acc msgs = .ok (.done [] acc msgs) := rfl

theorem feedFrom_partial (hne : rest ≠ []) (hp : partialFrame v rest = true) :
    feedFrom cfg v off rest acc msgs = .ok (feedStore cfg rest acc msgs) := feedLoop_partial hne hp

theorem feedFrom_violation {h : FrameHeader} (hd : decodeHeader rest = .ok (.header h))
    (hm : h.masked = 0#1 ∧ v = .modern) :
    feedFrom cfg v off rest acc msgs = .ok (.faulted .protocolViolation off msgs) := feedLoop_violation hd hm

theorem feedFrom_frame {h : FrameHeader} (hf : CompleteFrame v rest h) :
    feedFrom cfg v off rest acc msgs =
      if capAdmits cfg.accCap (acc.length + h.pl.toNat) then
        feedFrom cfg v (off + frameLen h) (rest.drop (frameLen h))
          (afterFrame h (payloadOf rest h) acc msgs).1 (afterFrame h (payloadOf rest h) acc msgs).2
      else .ok (.faulted .bufferOverflow 2 msgs) := by
  have h2 := hf.two_le
  have hl := hf.2.2
  unfold feedFrom
  rw [feedPasses, feedLoop_frame hf]
  congr 1
  obtain ⟨e, h1, h3⟩ := feedLoop_fuel cfg v (rest.length / 2) (feedPasses (rest.drop (frameLen h)).length)
    (off + frameLen h) (rest.drop (frameLen h)) (afterFrame h (payloadOf rest h) acc msgs).1
    (afterFrame h (payloadOf rest h) acc msgs).2 (by simp; omega) (Nat.le_refl _)
  rw [h1, h3]

/-- The loop's induction: on a stream used up, a partial tail, a violating frame, and a frame followed by the rest. -/
theorem stream_induction {P : Bytes → Prop} (v : Variant) (nil : P [])
    (tail : ∀ rest, rest ≠ [] → partialFrame v rest = true → P rest)
    (violation : ∀ rest h, decodeHeader rest = .ok (.header h) → h.masked = 0#1 ∧ v = .modern → P rest)
    (frame : ∀ rest h, CompleteFrame v rest h → P (rest.drop (frameLen h)) → P rest) (rest : Bytes) : P rest := by
  induction hn : rest.length using Nat.strong_induction_on generalizing rest with
  | _ n ih =>
    by_cases hne : rest = []
    · exact hne ▸ nil
    rcases stream_cases v rest with hpart | ⟨h, hd, hm⟩ | ⟨h, hf⟩
    · exact tail rest hne hpart
    · exact violation rest h hd hm
    · have h2 := hf.two_le
      have hl := hf.2.2
      exact frame rest h hf (ih _ (by simp; omega) _ rfl)

/-! Where a feed starts: the offset only moves the offset a violation reports, and messages emitted before stay in front. -/

/-- The end of a feed that started at stream offset `off` with the messages `before` emitted already. -/
def FeedEnd.shift (off : Nat) (before : List Bytes) : FeedEnd → FeedEnd
  | .done pend acc msgs => .done pend acc (before ++ msgs)
  | .faulted st info msgs =>
    .faulted st (if st = .protocolViolation then off + info else info) (before ++ msgs)

theorem afterFrame_append (h : FrameHeader) (p acc : Bytes) (before msgs : List Bytes) :
    afterFrame h p acc (before ++ msgs) =
      ((afterFrame h p acc msgs).1, before ++ (afterFrame h p acc msgs).2) := by
  unfold afterFrame
  split <;> simp

theorem feedFrom_shift (off : Nat) (before : List Bytes) (cfg : Config) (v : Variant) (off₀ : Nat) (rest acc : Bytes)
    (msgs : List Bytes) :
    feedFrom cfg v (off + off₀) rest acc (before ++ msgs) =
      (feedFrom cfg v off₀ rest acc msgs).map (FeedEnd.shift off before) := by
  induction rest using stream_induction v generalizing off₀ acc msgs with
  | nil => rfl
  | tail rest hne hp =>
    rw [feedFrom_partial hne hp, feedFrom_partial hne hp]
    unfold feedStore
    split <;> rfl
  | violation rest h hd hm =>
    rw [feedFrom_violation hd hm, feedFrom_violation hd hm]
    rfl
  | frame rest h hf ih =>
    rw [feedFrom_frame hf, feedFrom_frame hf]
    split
    · rw [afterFrame_append, Nat.add_assoc]
      exact ih _ _ _
    · rfl

theorem feedFrom_eq_shift (cfg : Config) (v : Variant) (off : Nat) (rest acc : Bytes) (msgs : List Bytes) :
    feedFrom cfg v off rest acc msgs = (feedFrom cfg v 0 rest acc []).map (FeedEnd.shift off msgs) := by
  simpa using feedFrom_shift off msgs cfg v 0 rest acc []

/-! What a feed leaves. -/

theorem feedFrom_done_facts {pend acc' : Bytes} {msgs' : List Bytes}
    (h : feedFrom cfg v off rest acc msgs = .ok (.done pend acc' msgs')) :
    partialFrame v pend = true ∧ capAdmits cfg.pendCap pend.length = true ∧
      (capAdmits cfg.accCap acc.length = true → capAdmits cfg.accCap acc'.length = true) := by
  induction rest using stream_induction v generalizing off acc msgs with
  | nil =>
    simp only [feedFrom_nil, Except.ok.injEq, FeedEnd.done.injEq] at h
    obtain ⟨rfl, rfl, rfl⟩ := h
    exact ⟨rfl, capAdmits_zero _, id⟩
  | tail rest hne hp =>
    rw [feedFrom_partial hne hp] at h
    unfold feedStore at h
    split at h <;> simp at h
    obtain ⟨rfl, rfl, rfl⟩ := h
    exact ⟨hp, ‹_›, id⟩
  | violation rest hdr hd hm =>
    rw [feedFrom_violation hd hm] at h
    simp at h
  | frame rest hdr hf ih =>
    rw [feedFrom_frame hf] at h
    split at h
    · rename_i hcap
      obtain ⟨h1, h2, h3⟩ := ih h
      refine ⟨h1, h2, fun _ => h3 ?_⟩
      unfold afterFrame
      split
      · exact capAdmits_zero _
      · simpa [payloadOf_length hf.2.2] using hcap
    · simp at h

theorem feedFrom_faulted_facts {st : Status} {info : Nat} {msgs' : List Bytes}
    (h : feedFrom cfg v off rest acc msgs = .ok (.faulted st info msgs')) :
    (st = .protocolViolation ∧ v = .modern ∧ off ≤ info ∧ info + 2 ≤ off + rest.length) ∨
      (st = .bufferOverflow ∧ (info = 1 ∨ info = 2)) := by
  induction rest using stream_induction v generalizing off acc msgs with
  | nil => simp at h
  | tail rest hne hp =>
    rw [feedFrom_partial hne hp] at h
    unfold feedStore at h
    split at h <;> simp at h
    obtain ⟨rfl, rfl, rfl⟩ := h
    exact .inr ⟨rfl, .inl rfl⟩
  | violation rest hdr hd hm =>
    rw [feedFrom_violation hd hm] at h
    simp only [Except.ok.injEq, FeedEnd.faulted.injEq] at h
    obtain ⟨rfl, rfl, rfl⟩ := h
    have h2 := decodeHeader_hl_pos hd
    have hl := decodeHeader_facts hd
    exact .inl ⟨rfl, hm.2, Nat.le_refl _, by omega⟩
  | frame rest hdr hf ih =>
    rw [feedFrom_frame hf] at h
    split at h
    · have hl := hf.2.2
      rcases ih h with ⟨h1, h2, h3, h4⟩ | h'
      · refine .inl ⟨h1, h2, by omega, ?_⟩
        simp only [List.length_drop] at h4
        omega
      · exact .inr h'
    · simp only [Except.ok.injEq, FeedEnd.faulted.injEq] at h
      obtain ⟨rfl, rfl, rfl⟩ := h
      exact .inr ⟨rfl, .inr rfl⟩

/-! A stream that arrives in pieces (42_session.md R160). -/

/-- What a feed left over is met again by the next one: feeding `a` and then `b` is feeding `a ++ b`. -/
theorem feedFrom_append_of_done {a : Bytes} (b : Bytes) {pend acc' : Bytes} {msgs' : List Bytes}
    (h : feedFrom cfg v off a acc msgs = .ok (.done pend acc' msgs')) :
    ∃ off', feedFrom cfg v off (a ++ b) acc msgs = feedFrom cfg v off' (pend ++ b) acc' msgs' := by
  induction a using stream_induction v generalizing off acc msgs with
  | nil =>
    simp only [feedFrom_nil, Except.ok.injEq, FeedEnd.done.injEq] at h
    obtain ⟨rfl, rfl, rfl⟩ := h
    exact ⟨off, rfl⟩
  | tail rest hne hp =>
    rw [feedFrom_partial hne hp] at h
    unfold feedStore at h
    split at h <;> simp at h
    obtain ⟨rfl, rfl, rfl⟩ := h
    exact ⟨off, rfl⟩
  | violation rest hdr hd hm =>
    rw [feedFrom_violation hd hm] at h
    simp at h
  | frame rest hdr hf ih =>
    rw [feedFrom_frame hf] at h
    split at h
    · rename_i hcap
      obtain ⟨off', ho⟩ := ih h
      refine ⟨off', ?_⟩
      rw [feedFrom_frame (hf.append b), if_pos hcap, payloadOf_append b hf.2.2,
        List.drop_append_of_le_length hf.2.2, ho]
    · simp at h

/-- A fault other than an overflow of `PEND` does not depend on what follows in the stream. -/
theorem feedFrom_append_of_faulted {a : Bytes} (b : Bytes) {st : Status} {info : Nat} {msgs' : List Bytes}
    (hcap : ∀ n, capAdmits cfg.pendCap n = true)
    (h : feedFrom cfg v off a acc msgs = .ok (.faulted st info msgs')) :
    feedFrom cfg v off (a ++ b) acc msgs = .ok (.faulted st info msgs') := by
  induction a using stream_induction v generalizing off acc msgs with
  | nil => simp at h
  | tail rest hne hp =>
    rw [feedFrom_partial hne hp, feedStore, if_pos (hcap _)] at h
    simp at h
  | violation rest hdr hd hm =>
    rw [feedFrom_violation (decodeHeader_append b hd) hm]
    rwa [feedFrom_violation hd hm] at h
  | frame rest hdr hf ih =>
    rw [feedFrom_frame hf] at h
    rw [feedFrom_frame (hf.append b), payloadOf_append b hf.2.2, List.drop_append_of_le_length hf.2.2]
    split at h
    · rename_i hcap'
      rw [if_pos hcap']
      exact ih h
    · rename_i hcap'
      rw [if_neg hcap', h]

end Sys2Proof.Machine
end

