-- ==== Sys2Proof/Laws/Exec.lean ====
section
/-! SUPPORT. What each command can do, once: the answers it can give, with the record each one writes. Later proofs split on these and do not unfold a meaning. -/

namespace Sys2Proof.Machine

/-! The decoder units. -/

theorem execHdrDecode_cases (sid : BitVec 8) (s : State) :
    (∃ k, k ∈ [0, 1] ∧ execHdrDecode sid s = raise .badOperand k s) ∨
    (∃ k, sid = 0#8 ∧ decodeHeader s.opA = .ok (.needMore k) ∧
      execHdrDecode sid s = complete (statusResult .needMore k) s) ∨
    (∃ h, sid = 0#8 ∧ decodeHeader s.opA = .ok (.header h) ∧
      execHdrDecode sid s = complete (withHeader (statusResult .ok 0) h) s) := by
  generalize ho : execHdrDecode sid s = o
  revert ho
  refine plainCommand_elim (P := fun x => x = o → _) (fun k hk ho => .inl ⟨k, hk, ho.symm⟩) (fun hs _ ho => ?_)
  obtain ⟨d, hd⟩ := decodeHeader_total s.opA
  rw [hd] at ho
  cases d with
  | needMore k => exact .inr (.inl ⟨k, hs, hd, ho.symm⟩)
  | header h => exact .inr (.inr ⟨h, hs, hd, ho.symm⟩)

theorem execFrameDecode_cases (sid : BitVec 8) (s : State) :
    (∃ k, k ∈ [0, 1] ∧ execFrameDecode sid s = raise .badOperand k s) ∨
    (∃ k, sid = 0#8 ∧ decodeHeader s.opA = .ok (.needMore k) ∧
      execFrameDecode sid s = complete (statusResult .needMore k) s) ∨
    (∃ h, sid = 0#8 ∧ decodeHeader s.opA = .ok (.header h) ∧ s.opA.length < frameLen h ∧
      execFrameDecode sid s = complete (withHeader (statusResult .needMore (frameLen h - s.opA.length)) h) s) ∨
    (∃ h, sid = 0#8 ∧ decodeHeader s.opA = .ok (.header h) ∧ frameLen h ≤ s.opA.length ∧
      execFrameDecode sid s =
        complete { withHeader (statusResult .ok 0) h with
          out := payloadOf s.opA h, rem := s.opA.drop (frameLen h) } s) := by
  generalize ho : execFrameDecode sid s = o
  revert ho
  refine plainCommand_elim (P := fun x => x = o → _) (fun k hk ho => .inl ⟨k, hk, ho.symm⟩) (fun hs _ ho => ?_)
  obtain ⟨d, hd⟩ := decodeHeader_total s.opA
  rw [hd] at ho
  cases d with
  | needMore k => exact .inr (.inl ⟨k, hs, hd, ho.symm⟩)
  | header h =>
    simp only [orFault_ok] at ho
    split at ho
    · exact .inr (.inr (.inl ⟨h, hs, hd, ‹_›, ho.symm⟩))
    · rename_i hl
      rw [framePayload_eq (Nat.not_lt.mp hl)] at ho
      exact .inr (.inr (.inr ⟨h, hs, hd, Nat.not_lt.mp hl, ho.symm⟩))

theorem execUnmask_cases (sid : BitVec 8) (s : State) :
    (∃ k, k ∈ [0, 1, 2] ∧ execUnmask sid s = raise .badOperand k s) ∨
    (sid = 0#8 ∧ s.opB.length = 4 ∧
      execUnmask sid s = complete { statusResult .ok 0 with out := unmask s.opA s.opB } s) := by
  generalize ho : execUnmask sid s = o
  revert ho
  refine plainCommand_elim (P := fun x => x = o → _) (fun k hk ho => .inl ⟨k, hk, ho.symm⟩) (fun hs _ ho => ?_)
  split at ho
  · exact .inl ⟨2, by simp, ho.symm⟩
  · rename_i hl
    exact .inr ⟨hs, by simpa [keyLength] using hl, ho.symm⟩

/-! The session sequencer. -/

theorem execSessionOpen_cases (sid : BitVec 8) (s : State) :
    (∃ k, k ∈ [0, 1] ∧ execSessionOpen sid s = raise .badOperand k s) ∨
    (∃ c, ctxAt s sid = some c ∧ c.state ≠ .idle ∧
      execSessionOpen sid s = raise .sessionState c.state.code.toNat s) ∨
    (∃ c v, ctxAt s sid = some c ∧ c.state = .idle ∧ variantOperand s.opA = some v ∧
      execSessionOpen sid s =
        completeCtx sid { state := .opened, variant := v, fault := 0#8, pend := [], acc := [] }
          (statusResult .ok 0) s) := by
  generalize ho : execSessionOpen sid s = o
  revert ho
  refine sessionCommand_elim (P := fun x => x = o → _) (fun k hk ho => .inl ⟨k, hk, ho.symm⟩) (fun c hc _ ho => ?_)
  split at ho
  · exact .inl ⟨1, by simp, ho.symm⟩
  · rename_i v hv
    split at ho
    · exact .inr (.inl ⟨c, hc, ‹_›, ho.symm⟩)
    · rename_i hi
      exact .inr (.inr ⟨c, v, hc, by simpa using hi, hv, ho.symm⟩)

theorem execSessionFeed_cases (sid : BitVec 8) (s : State) :
    (∃ k, k ∈ [0, 1] ∧ execSessionFeed sid s = raise .badOperand k s) ∨
    (∃ c, ctxAt s sid = some c ∧ c.state ≠ .opened ∧
      execSessionFeed sid s = raise .sessionState c.state.code.toNat s) ∨
    (∃ c pend acc msgs, ctxAt s sid = some c ∧ c.state = .opened ∧
      feed s.cfg c s.opA = .ok (.done pend acc msgs) ∧
      execSessionFeed sid s =
        completeCtx sid { c with pend := pend, acc := acc } { statusResult .ok 0 with msgs := msgs } s) ∨
    (∃ c st info msgs, ctxAt s sid = some c ∧ c.state = .opened ∧
      feed s.cfg c s.opA = .ok (.faulted st info msgs) ∧
      execSessionFeed sid s = sessionFault st info msgs sid c s) := by
  generalize ho : execSessionFeed sid s = o
  revert ho
  refine sessionCommand_elim (P := fun x => x = o → _) (fun k hk ho => .inl ⟨k, hk, ho.symm⟩) (fun c hc _ ho => ?_)
  split at ho
  · exact .inr (.inl ⟨c, hc, ‹_›, ho.symm⟩)
  · rename_i hn
    have hs : c.state = .opened := by simpa using hn
    obtain ⟨e, he⟩ := feedFrom_total s.cfg c.variant 0 (c.pend ++ s.opA) c.acc []
    rw [← feed_eq_feedFrom] at he
    rw [he] at ho
    cases e with
    | done pend acc msgs => exact .inr (.inr (.inl ⟨c, pend, acc, msgs, hc, hs, he, ho.symm⟩))
    | faulted st info msgs => exact .inr (.inr (.inr ⟨c, st, info, msgs, hc, hs, he, ho.symm⟩))

theorem execSessionClose_cases (sid : BitVec 8) (s : State) :
    execSessionClose sid s = raise .badOperand 0 s ∨
    (∃ c, ctxAt s sid = some c ∧
      execSessionClose sid s = completeCtx sid Ctx.idle (statusResult .ok 0) s) := by
  generalize ho : execSessionClose sid s = o
  revert ho
  refine sessionCommand_elim (P := fun x => x = o → _) (fun k hk ho => ?_) (fun c hc _ ho => .inr ⟨c, hc, ho.symm⟩)
  obtain rfl : k = 0 := by simpa using hk
  exact .inl ho.symm

theorem execSessionQuery_cases (sid : BitVec 8) (s : State) :
    execSessionQuery sid s = raise .badOperand 0 s ∨
    (∃ c, ctxAt s sid = some c ∧
      execSessionQuery sid s = complete { statusResult .ok 0 with
        qState := c.state.code
        qVariant := c.variant.code
        qFault := c.fault
        qPlen := c.pend.length
        qAlen := c.acc.length } s) := by
  generalize ho : execSessionQuery sid s = o
  revert ho
  refine sessionCommand_elim (P := fun x => x = o → _) (fun k hk ho => ?_) (fun c hc _ ho => .inr ⟨c, hc, ho.symm⟩)
  obtain rfl : k = 0 := by simpa using hk
  exact .inl ho.symm

/-! The encoder and the two derivations. -/

theorem execEncodeText_cases (sid : BitVec 8) (s : State) :
    (∃ k, k ∈ [0, 1] ∧ execEncodeText sid s = raise .badOperand k s) ∨
    (sid = 0#8 ∧ execEncodeText sid s =
      complete { statusResult .ok 0 with out := textHeader s.opA.length ++ s.opA } s) := by
  generalize ho : execEncodeText sid s = o
  revert ho
  refine plainCommand_elim (P := fun x => x = o → _) (fun k hk ho => .inl ⟨k, hk, ho.symm⟩) (fun hs _ ho => ?_)
  exact .inr ⟨hs, ho.symm⟩

/-- The reasons a key can fail for, and the bound on what it reduces to (44_legacy_token.md R194). -/
theorem keyReduce_facts (bound : KeyBound) (key : Bytes) :
    (∀ c, keyReduce bound key = .error c → c ∈ [1, 2, 3]) ∧ (∀ q, keyReduce bound key = .ok q → q < 2 ^ 32) := by
  unfold keyReduce
  constructor
  · intro c h
    simp only at h
    split at h
    · simp_all
    · split at h
      · simp_all
      · split at h <;> simp_all
  · intro q h
    simp only at h
    split at h
    · simp at h
    · split at h
      · simp at h
      · split at h
        · simp at h
        · rename_i hn
          have hq := (Except.ok.inj h).symm
          cases bound
          · simpa [keyOverflow, hq] using hn
          · have hle := Nat.div_le_self (digitValue (key.filter isDigit)) (key.countP isSpace)
            simp only [keyOverflow, decide_eq_true_eq, Nat.not_le] at hn
            omega

theorem execKeyReduce_cases (sid : BitVec 8) (s : State) :
    (∃ k, k ∈ [0, 1] ∧ execKeyReduce sid s = raise .badOperand k s) ∨
    (∃ c, c ∈ [1, 2, 3] ∧ sid = 0#8 ∧ keyReduce s.cfg.keyBound s.opA = .error c ∧
      execKeyReduce sid s = raise .malformedKey (keyInfo 1 c) s) ∨
    (∃ q, sid = 0#8 ∧ keyReduce s.cfg.keyBound s.opA = .ok q ∧
      execKeyReduce sid s = complete { statusResult .ok 0 with val := BitVec.ofNat 32 q } s) := by
  generalize ho : execKeyReduce sid s = o
  revert ho
  refine plainCommand_elim (P := fun x => x = o → _) (fun k hk ho => .inl ⟨k, hk, ho.symm⟩) (fun hs _ ho => ?_)
  split at ho
  · rename_i c hc
    exact .inr (.inl ⟨c, (keyReduce_facts _ _).1 c hc, hs, hc, ho.symm⟩)
  · rename_i q hq
    exact .inr (.inr ⟨q, hs, hq, ho.symm⟩)

theorem execLegacyToken_cases (sid : BitVec 8) (s : State) :
    (∃ k, k ∈ [0, 1, 2, 3] ∧ execLegacyToken sid s = raise .badOperand k s) ∨
    (∃ i c, i ∈ [1, 2] ∧ c ∈ [1, 2, 3] ∧ sid = 0#8 ∧
      execLegacyToken sid s = raise .malformedKey (keyInfo i c) s) ∨
    (∃ q1 q2, sid = 0#8 ∧ keyReduce s.cfg.keyBound s.opA = .ok q1 ∧ keyReduce s.cfg.keyBound s.opB = .ok q2 ∧
      execLegacyToken sid s = complete { statusResult .ok 0 with out := md5 (tokenInput q1 q2 s.opC) } s) := by
  generalize ho : execLegacyToken sid s = o
  revert ho
  refine plainCommand_elim (P := fun x => x = o → _) (fun k hk ho => .inl ⟨k, hk, ho.symm⟩) (fun hs _ ho => ?_)
  split at ho
  · exact .inl ⟨3, by simp, ho.symm⟩
  · split at ho
    · rename_i c hc
      exact .inr (.inl ⟨1, c, by simp, (keyReduce_facts _ _).1 c hc, hs, ho.symm⟩)
    · rename_i q1 h1
      split at ho
      · rename_i c hc
        exact .inr (.inl ⟨2, c, by simp, (keyReduce_facts _ _).1 c hc, hs, ho.symm⟩)
      · rename_i q2 h2
        exact .inr (.inr ⟨q1, q2, hs, h1, h2, ho.symm⟩)

theorem execAcceptKey_cases (sid : BitVec 8) (s : State) :
    (∃ k, k ∈ [0, 1] ∧ execAcceptKey sid s = raise .badOperand k s) ∨
    (sid = 0#8 ∧ execAcceptKey sid s =
      complete { statusResult .ok 0 with out := base64 (sha1 (s.opA ++ guid)) } s) := by
  generalize ho : execAcceptKey sid s = o
  revert ho
  refine plainCommand_elim (P := fun x => x = o → _) (fun k hk ho => .inl ⟨k, hk, ho.symm⟩) (fun hs _ ho => ?_)
  split at ho
  · exact .inl ⟨1, by simp, ho.symm⟩
  · exact .inr ⟨hs, ho.symm⟩

/-! The shape of every command's answer. -/

/-- The answer of a command: a result record, and for a session command at most its own context. -/
theorem exec_shape (i : Instr) (s : State) :
    (∃ r, exec i s = complete r s) ∨
    (∃ c d r, i.isSession = true ∧ ctxAt s i.sid = some c ∧ exec i s = completeCtx i.sid d r s) := by
  cases i with
  | hdrDecode sid =>
    rcases execHdrDecode_cases sid s with ⟨k, _, h⟩ | ⟨k, _, _, h⟩ | ⟨hd, _, _, h⟩ <;> exact .inl ⟨_, h⟩
  | frameDecode sid =>
    rcases execFrameDecode_cases sid s with ⟨k, _, h⟩ | ⟨k, _, _, h⟩ | ⟨hd, _, _, _, h⟩ | ⟨hd, _, _, _, h⟩ <;>
      exact .inl ⟨_, h⟩
  | unmask sid =>
    rcases execUnmask_cases sid s with ⟨k, _, h⟩ | ⟨_, _, h⟩ <;> exact .inl ⟨_, h⟩
  | sessionOpen sid =>
    rcases execSessionOpen_cases sid s with ⟨k, _, h⟩ | ⟨c, _, _, h⟩ | ⟨c, v, hc, _, _, h⟩
    · exact .inl ⟨_, h⟩
    · exact .inl ⟨_, h⟩
    · exact .inr ⟨c, _, _, rfl, hc, h⟩
  | sessionFeed sid =>
    rcases execSessionFeed_cases sid s with ⟨k, _, h⟩ | ⟨c, _, _, h⟩ | ⟨c, p, a, m, hc, _, _, h⟩ |
      ⟨c, st, n, m, hc, _, _, h⟩
    · exact .inl ⟨_, h⟩
    · exact .inl ⟨_, h⟩
    · exact .inr ⟨c, _, _, rfl, hc, h⟩
    · exact .inr ⟨c, _, _, rfl, hc, h⟩
  | sessionClose sid =>
    rcases execSessionClose_cases sid s with h | ⟨c, hc, h⟩
    · exact .inl ⟨_, h⟩
    · exact .inr ⟨c, _, _, rfl, hc, h⟩
  | sessionQuery sid =>
    rcases execSessionQuery_cases sid s with h | ⟨c, _, h⟩ <;> exact .inl ⟨_, h⟩
  | encodeText sid =>
    rcases execEncodeText_cases sid s with ⟨k, _, h⟩ | ⟨_, h⟩ <;> exact .inl ⟨_, h⟩
  | keyReduce sid =>
    rcases execKeyReduce_cases sid s with ⟨k, _, h⟩ | ⟨c, _, _, _, h⟩ | ⟨q, _, _, h⟩ <;> exact .inl ⟨_, h⟩
  | legacyToken sid =>
    rcases execLegacyToken_cases sid s with ⟨k, _, h⟩ | ⟨j, c, _, _, _, h⟩ | ⟨q1, q2, _, _, _, h⟩ <;>
      exact .inl ⟨_, h⟩
  | acceptKey sid =>
    rcases execAcceptKey_cases sid s with ⟨k, _, h⟩ | ⟨_, h⟩ <;> exact .inl ⟨_, h⟩

/-- The same, read from the next state. -/
theorem exec_elim {i : Instr} {s t : State} (h : exec i s = .next t) :
    (∃ r, t = finish r s) ∨
    (∃ c d r, i.isSession = true ∧ ctxAt s i.sid = some c ∧ t = finish r (setCtx i.sid d s)) := by
  rcases exec_shape i s with ⟨r, h'⟩ | ⟨c, d, r, h1, h2, h'⟩ <;> rw [h'] at h <;> cases h
  · exact .inl ⟨r, rfl⟩
  · exact .inr ⟨c, d, r, h1, h2, rfl⟩

/-- A feed of an OPEN context whose checks pass is the loop's answer (42_session.md R149). -/
theorem execSessionFeed_open {s : State} {sid : BitVec 8} {c : Ctx} (hc : ctxAt s sid = some c)
    (ho : c.state = .opened) (hl : s.opA.length ≤ s.cfg.maxOperand) :
    ∃ e, feed s.cfg c s.opA = .ok e ∧ execSessionFeed sid s = match e with
      | .done pend acc msgs =>
        completeCtx sid { c with pend := pend, acc := acc } { statusResult .ok 0 with msgs := msgs } s
      | .faulted st info msgs => sessionFault st info msgs sid c s := by
  obtain ⟨e, he⟩ := feedFrom_total s.cfg c.variant 0 (c.pend ++ s.opA) c.acc []
  rw [← feed_eq_feedFrom] at he
  refine ⟨e, he, ?_⟩
  unfold execSessionFeed
  rw [sessionCommand_ok hc (by simpa using hl), if_neg (by simp [ho]), he]
  rfl

end Sys2Proof.Machine
end

