-- ==== Sys2Proof/Laws/PerInstr.lean ====
section
/-! SUPPORT. A fact of every command, one lemma per constructor: the two fields of the word it is encoded as (30_encoding.md R70, R87). -/

namespace Sys2Proof.Laws.EncodeFields

/-- The word of a command holds its `OP` in bits 7:0 and its `SID` in bits 15:8. -/
def Statement (i : Instr) : Prop := opField (encode i) = opcode i ∧ sidField (encode i) = i.sid

theorem hdrDecode (sid : BitVec 8) : Statement (.hdrDecode sid) := ⟨opField_append _ _, sidField_append _ _⟩

theorem frameDecode (sid : BitVec 8) : Statement (.frameDecode sid) := ⟨opField_append _ _, sidField_append _ _⟩

theorem unmask (sid : BitVec 8) : Statement (.unmask sid) := ⟨opField_append _ _, sidField_append _ _⟩

theorem sessionOpen (sid : BitVec 8) : Statement (.sessionOpen sid) := ⟨opField_append _ _, sidField_append _ _⟩

theorem sessionFeed (sid : BitVec 8) : Statement (.sessionFeed sid) := ⟨opField_append _ _, sidField_append _ _⟩

theorem sessionClose (sid : BitVec 8) : Statement (.sessionClose sid) := ⟨opField_append _ _, sidField_append _ _⟩

theorem sessionQuery (sid : BitVec 8) : Statement (.sessionQuery sid) := ⟨opField_append _ _, sidField_append _ _⟩

theorem encodeText (sid : BitVec 8) : Statement (.encodeText sid) := ⟨opField_append _ _, sidField_append _ _⟩

theorem keyReduce (sid : BitVec 8) : Statement (.keyReduce sid) := ⟨opField_append _ _, sidField_append _ _⟩

theorem legacyToken (sid : BitVec 8) : Statement (.legacyToken sid) := ⟨opField_append _ _, sidField_append _ _⟩

theorem acceptKey (sid : BitVec 8) : Statement (.acceptKey sid) := ⟨opField_append _ _, sidField_append _ _⟩

end Sys2Proof.Laws.EncodeFields
end

