-- ==== Sys2Proof/Laws/Step.lean ====
section
/-! SUPPORT. What one step does, by the host's next action. -/

namespace Sys2Proof.Machine

theorem step_idle {s : State} (h : s.pending = []) : step s = .next s := by
  simp [step, h]

theorem step_reset {s : State} {later : List HostAction} (h : s.pending = .reset :: later) :
    step s = .next (resetBlock s later) := by
  simp [step, h]

theorem step_issue {s : State} {c : Command} {later : List HostAction} (h : s.pending = .issue c :: later) :
    step s = match decode c.cmd with
      | .ok i => exec i (present s c later)
      | .error e => execReserved e (present s c later) := by
  generalize hd : decode c.cmd = d
  cases d <;> simp [step, h, hd]

/-- What a step that runs a command answers: the command's answer, or the raise of a reserved `OP`. -/
theorem step_issue_elim {s t : State} {c : Command} {later : List HostAction} (h : s.pending = .issue c :: later)
    (hs : step s = .next t) :
    (∃ i, decode c.cmd = .ok i ∧ exec i (present s c later) = .next t) ∨
    (∃ op, decode c.cmd = .error (.reservedOp op) ∧
      t = finish (statusResult .illegalCommand op.toNat) (present s c later)) := by
  rw [step_issue h] at hs
  split at hs
  · exact .inl ⟨_, ‹_›, hs⟩
  · rename_i e he
    cases e
    cases hs
    exact .inr ⟨_, he, rfl⟩

end Sys2Proof.Machine
end

