-- ==== Sys2Proof/Laws/Wire.lean ====
section
/-! SUPPORT. The lengths of the parts of a frame as a sender builds it (30_encoding.md R75 to R82). -/

namespace Sys2Proof.Machine

@[simp] theorem WireFrame.lengthBytes_length (f : WireFrame) : f.lengthBytes.length = 1 + f.form.extBytes := by
  unfold WireFrame.lengthBytes LenForm.extBytes
  cases f.form <;> simp

theorem WireFrame.maskBit_some {f : WireFrame} {k : Vector Byte 4} (h : f.key = some k) : f.maskBit = 1#1 := by
  simp [WireFrame.maskBit, h]

theorem WireFrame.maskBit_none {f : WireFrame} (h : f.key = none) : f.maskBit = 0#1 := by
  simp [WireFrame.maskBit, h]

/-- A frame is its header, whose length the form and the mask bit give (30_encoding.md R80), and its payload. -/
theorem WireFrame.bytes_length (f : WireFrame) :
    f.bytes.length = 2 + f.form.extBytes + 4 * f.maskBit.toNat + f.payload.length := by
  unfold WireFrame.bytes
  cases hk : f.key with
  | none =>
    rw [WireFrame.maskBit_none hk]
    simp
    omega
  | some k =>
    rw [WireFrame.maskBit_some hk]
    simp
    omega

end Sys2Proof.Machine
end

