-- ==== Sys2Proof/Tests/Slice0.lean ====
section
/-! SUPPORT. The model's own tests: the well-formedness smoke tests, words written out from the encoding rules, single commands from the tables of 95_test_vectors.md, and for each statement a state that meets its hypotheses. -/

namespace Sys2Proof.Tests

open Sys2Proof Sys2Proof.Machine

/-- A legal build with small capacities, so that boundaries are short. -/
def small : Config := { maxOperand := 16, pendCap := .bytes 14, accCap := .bytes 4, keyBound := .quotient }

/-- The same build without buffer capacities. -/
def wide : Config := { small with pendCap := .unbounded, accCap := .unbounded }

/-- A block with these parameters, contexts and operands. -/
def blk (cfg : Config) (ctxs : List Ctx) (a b c : Bytes) : State :=
  { State.resetOf 0 cfg [] with ctxs := ctxs, opA := a, opB := b, opC := c }

/-- An OPEN context. -/
def opened (v : Variant) (pend acc : Bytes) : Ctx :=
  { state := .opened, variant := v, fault := 0#8, pend := pend, acc := acc }

/-- A FAULTED context. -/
def faulted (v : Variant) (code : BitVec 8) : Ctx :=
  { state := .faulted, variant := v, fault := code, pend := [], acc := [] }

/-- The command ends in a next state that satisfies `p`. -/
def ran (o : Host.Outcome State Fault Refusal) (p : State → Bool) : Bool :=
  match o with
  | .next t => p t
  | .fault _ => false
  | .refused _ => false

/-- `ran` gives the next state the statements' hypotheses ask for. -/
theorem ran_next {o : Host.Outcome State Fault Refusal} {p : State → Bool} (h : ran o p = true) :
    ∃ t, o = .next t ∧ p t = true := by
  cases o with
  | next t => exact ⟨t, rfl, h⟩
  | fault r => cases h
  | refused r => cases h

/-- The ASCII bytes of a text. -/
def ascii (t : String) : Bytes := t.toList.map fun ch => BitVec.ofNat 8 ch.toNat

/-- One command word on a block of `small` with two contexts. -/
def issueOn (ctxs : List Ctx) (w : BitVec 16) (a b c : Bytes) : State :=
  { State.resetOf 0 small [.issue { cmd := w, opA := a, opB := b, opC := c }] with ctxs := ctxs }

/-! ## Well-formedness: each check refuses an ill-formed command (30_encoding.md R73). -/

theorem test_wellFormed_plain_sid : (Instr.hdrDecode 0x01#8).wellFormed 4 = false ∧
    (Instr.acceptKey 0xFF#8).wellFormed 256 = false ∧ (Instr.hdrDecode 0x00#8).wellFormed 1 = true := by decide

theorem test_wellFormed_session_sid : (Instr.sessionOpen 0x04#8).wellFormed 4 = false ∧
    (Instr.sessionFeed 0x01#8).wellFormed 1 = false ∧ (Instr.sessionOpen 0x03#8).wellFormed 4 = true ∧
    (Instr.sessionQuery 0xFF#8).wellFormed 256 = true := by decide

/-! ## Words written out bit by bit from 30_encoding.md R70: SID in bits 15:8, OP in bits 7:0. -/

theorem test_decode_frames : decode 0b0000000000000001#16 = .ok (.hdrDecode 0b00000000#8) ∧
    decode 0b0000000000000010#16 = .ok (.frameDecode 0b00000000#8) ∧
    decode 0b0000000100000001#16 = .ok (.hdrDecode 0b00000001#8) := by decide

theorem test_decode_unmask : decode 0b0000000000000011#16 = .ok (.unmask 0b00000000#8) := by decide

theorem test_decode_sessions : decode 0b0000000100010000#16 = .ok (.sessionOpen 0b00000001#8) ∧
    decode 0b1111111100010001#16 = .ok (.sessionFeed 0b11111111#8) ∧
    decode 0b0000001000010010#16 = .ok (.sessionClose 0b00000010#8) ∧
    decode 0b1000000000010011#16 = .ok (.sessionQuery 0b10000000#8) := by decide

theorem test_decode_encoder : decode 0b0000000000100000#16 = .ok (.encodeText 0b00000000#8) := by decide

theorem test_decode_legacy : decode 0b0000000000110000#16 = .ok (.keyReduce 0b00000000#8) ∧
    decode 0b0000000000110001#16 = .ok (.legacyToken 0b00000000#8) := by decide

theorem test_decode_accept : decode 0b0000000001000000#16 = .ok (.acceptKey 0b00000000#8) := by decide

theorem test_decode_reserved : decode 0x0000#16 = .error (.reservedOp 0x00#8) ∧
    decode 0x0004#16 = .error (.reservedOp 0x04#8) ∧ decode 0x05FF#16 = .error (.reservedOp 0xFF#8) := by decide

theorem test_encode_words : encode (.sessionFeed 0x02#8) = 0x0211#16 ∧ encode (.acceptKey 0x00#8) = 0x0040#16 := by
  decide

theorem test_withFetchWord : ran (step (State.reset.withFetchWord 16 0x0010)) (fun t =>
    decide (t.cmd = 0x0010#16 ∧ t.result.status = 0x11#8 ∧ t.result.info = 1)) = true := by decide

/-! ## Single commands, from the tables of 95_test_vectors.md. -/

-- V-HDR
theorem test_hdrDecode_masked_empty :
    ran (exec (.hdrDecode 0#8) (blk small [] [0xF0#8, 0x80#8, 0x11#8, 0x22#8, 0x33#8, 0x44#8] [] [])) (fun t =>
      decide (t.result = { Result.null with
        hFin := 1#1, hRsv := 7#3, hMask := 1#1, hHlen := 6#4, hKey := [0x11#8, 0x22#8, 0x33#8, 0x44#8] })) = true := by
  decide

-- V-HDR
theorem test_hdrDecode_need_more :
    ran (exec (.hdrDecode 0#8) (blk small [] [0x81#8, 0xFE#8, 0x00#8, 0x7E#8] [] [])) (fun t =>
      decide (t.result = { Result.null with status := 0x01#8, info := 4 })) = true := by decide

-- V-FRM
theorem test_frameDecode_remainder :
    ran (exec (.frameDecode 0#8)
        (blk small [] [0x01#8, 0x03#8, 0x48#8, 0x65#8, 0x6C#8, 0x80#8, 0x02#8, 0x6C#8, 0x6F#8] [] [])) (fun t =>
      decide (t.result = { Result.null with
        hOpc := 1#4, hPlen := 3#64, hHlen := 2#4, out := [0x48#8, 0x65#8, 0x6C#8],
        rem := [0x80#8, 0x02#8, 0x6C#8, 0x6F#8] })) = true := by decide

-- V-FRM
theorem test_frameDecode_need_more :
    ran (exec (.frameDecode 0#8) (blk small [] [0x81#8, 0x85#8, 0x37#8, 0xFA#8, 0x21#8, 0x3D#8, 0x7F#8] [] [])) (fun t =>
      decide (t.result = { Result.null with
        status := 0x01#8, info := 4, hFin := 1#1, hOpc := 1#4, hMask := 1#1, hPlen := 5#64, hHlen := 6#4,
        hKey := [0x37#8, 0xFA#8, 0x21#8, 0x3D#8] })) = true := by decide

-- V-UNM
theorem test_unmask_partial_group :
    ran (exec (.unmask 0#8) (blk small [] (ascii "abcdefg") [0x01#8, 0x02#8, 0x03#8, 0x04#8] [])) (fun t =>
      decide (t.result = { Result.null with
        out := [0x60#8, 0x60#8, 0x60#8, 0x60#8, 0x64#8, 0x64#8, 0x64#8] })) = true := by decide

-- V-UNM
theorem test_unmask_short_key :
    ran (exec (.unmask 0#8) (blk small [] (ascii "hi") [0x01#8, 0x02#8, 0x03#8] [])) (fun t =>
      decide (t.result = { Result.null with status := 0x11#8, info := 2 })) = true := by decide

-- 42_session.md R140
theorem test_sessionOpen_legacy :
    ran (exec (.sessionOpen 1#8) (blk small [Ctx.idle, Ctx.idle] [0x01#8] [] [])) (fun t =>
      decide (t.ctxs = [Ctx.idle, opened .legacy [] []] ∧ t.result = Result.null)) = true := by decide

-- V-SES
theorem test_sessionOpen_bad_variant :
    ran (exec (.sessionOpen 0#8) (blk small [Ctx.idle] [0x02#8] [] [])) (fun t =>
      decide (t.ctxs = [Ctx.idle] ∧ t.result.status = 0x11#8 ∧ t.result.info = 1)) = true := by decide

-- V-SES
theorem test_sessionFeed_empty_messages :
    ran (exec (.sessionFeed 0#8)
        (blk small [opened .legacy [] []] [0x01#8, 0x00#8, 0x80#8, 0x00#8, 0x81#8, 0x00#8] [] [])) (fun t =>
      decide (t.result = { Result.null with msgs := [[], []] } ∧ t.ctxs = [opened .legacy [] []])) = true := by decide

-- V-SES
theorem test_sessionFeed_violation :
    ran (exec (.sessionFeed 0#8) (blk small [opened .modern [] [0x41#8]] [0x80#8, 0x01#8, 0x42#8] [] [])) (fun t =>
      decide (t.result = { Result.null with status := 0x30#8 } ∧ t.ctxs = [faulted .modern 0x30#8])) = true := by decide

-- 42_session.md R157
theorem test_sessionClose_faulted :
    ran (exec (.sessionClose 1#8) (blk small [opened .legacy [] [], faulted .legacy 0x31#8] [] [] [])) (fun t =>
      decide (t.ctxs = [opened .legacy [] [], Ctx.idle] ∧ t.result = Result.null)) = true := by decide

-- P1, line 3
theorem test_sessionQuery_partial :
    ran (exec (.sessionQuery 0#8) (blk small [opened .modern [0x81#8, 0x85#8, 0x37#8, 0xFA#8, 0x21#8] []] [] [] []))
      (fun t => decide (t.result = { Result.null with qState := 1#2, qPlen := 5 })) = true := by decide

-- V-ENC
theorem test_encodeText_hi :
    ran (exec (.encodeText 0#8) (blk small [] (ascii "hi") [] [])) (fun t =>
      decide (t.result = { Result.null with out := [0x81#8, 0x02#8, 0x68#8, 0x69#8] })) = true := by decide

-- V-ENC
theorem test_encodeText_headers : textHeader 125 = [0x81#8, 0x7D#8] ∧ textHeader 126 = [0x81#8, 0x7E#8, 0x00#8, 0x7E#8] ∧
    textHeader 65535 = [0x81#8, 0x7E#8, 0xFF#8, 0xFF#8] ∧
    textHeader 70000 = [0x81#8, 0x7F#8, 0x00#8, 0x00#8, 0x00#8, 0x00#8, 0x00#8, 0x01#8, 0x11#8, 0x70#8] := by decide

-- V-KEY
theorem test_keyReduce_tab :
    ran (exec (.keyReduce 0#8) (blk small [] [0x31#8, 0x09#8, 0x32#8, 0x20#8] [] [])) (fun t =>
      decide (t.result = { Result.null with val := 12#32 })) = true := by decide

-- V-KEY
theorem test_keyReduce_overflow :
    ran (exec (.keyReduce 0#8) (blk small [] (ascii "99999999999 ") [] [])) (fun t =>
      decide (t.result = { Result.null with status := 0x20#8, info := 0x13 })) = true := by decide

-- V-TOK
theorem test_legacyToken_zero_nonce :
    ran (exec (.legacyToken 0#8) (blk small [] (ascii "1  2") (ascii "3   6") (List.replicate 8 0#8))) (fun t =>
      decide (t.result.status = 0#8 ∧ be t.result.out = 0xF4001E7E65F125994E14AB9ED14E5A43)) = true := by
  decide +kernel

-- V-TOK
theorem test_legacyToken_key1_first :
    ran (exec (.legacyToken 0#8) (blk small [] (ascii "12") [] (ascii "01234567"))) (fun t =>
      decide (t.result = { Result.null with status := 0x20#8, info := 0x12 })) = true := by decide

-- V-ACC
theorem test_acceptKey_empty :
    ran (exec (.acceptKey 0#8) (blk small [] [] [] [])) (fun t =>
      decide (t.result = { Result.null with out := ascii "Kfh9QIsMVZcl6xEPYxPHzW8SZ8w=" })) = true := by
  decide +kernel

-- V-CHK
theorem test_reserved_before_sid :
    ran (step (issueOn [Ctx.idle] 0x05FF#16 [] [] [])) (fun t =>
      decide (t.result = { Result.null with status := 0x10#8, info := 0xFF })) = true := by decide

-- V-CHK
theorem test_unused_operand_not_checked :
    ran (step (issueOn [] 0x0003#16 (ascii "xxx") (ascii "abcd") (List.replicate 100 0#8))) (fun t =>
      decide (t.result = { Result.null with out := [0x19#8, 0x1A#8, 0x1B#8] })) = true := by decide

/-! ## Witnesses: for each statement with hypotheses, a state and operands that meet them, clause by clause. -/

theorem test_witness_ReservedOpcodesRaiseIllegalCommand :
    (∀ op ∈ [0x00, 0x04, 0x0F, 0x14, 0x1F, 0x21, 0x2F, 0x32, 0x3F, 0x41, 0xFF],
      (op = 0x00 ∨ (0x04 ≤ op ∧ op ≤ 0x0F) ∨ (0x14 ≤ op ∧ op ≤ 0x1F) ∨ (0x21 ≤ op ∧ op ≤ 0x2F) ∨
        (0x32 ≤ op ∧ op ≤ 0x3F) ∨ 0x41 ≤ op) ∧ op = (BitVec.ofNat 16 (0x0300 + op)).toNat % 256 ∧
      op ∉ [0x01, 0x02, 0x03, 0x10, 0x11, 0x12, 0x13, 0x20, 0x30, 0x31, 0x40]) ∧
    (∀ op ∈ [0x01, 0x02, 0x03, 0x10, 0x11, 0x12, 0x13, 0x20, 0x30, 0x31, 0x40],
      op = (BitVec.ofNat 16 (0x0300 + op)).toNat % 256 ∧
      ran (step (issueOn [Ctx.idle] (BitVec.ofNat 16 (0x0300 + op)) [] [] [])) (fun t =>
        decide (t.result.status ≠ 0x10#8)) = true) := by decide

theorem test_witness_StepRunsTheIssuedCommand :
    (issueOn [Ctx.idle] 0x0010#16 [0x01#8] [] []).pending =
      .issue { cmd := 0x0010#16, opA := [0x01#8], opB := [], opC := [] } :: [] ∧
    decode 0x0010#16 = .ok (.sessionOpen 0#8) := by decide

theorem test_witness_IdleStepHoldsAllState : (blk small [opened .modern [] []] [] [] []).pending = [] := by decide

theorem test_witness_HostResetClearsEveryContext :
    ran (step { blk small [opened .legacy [0x81#8] [0x41#8], faulted .modern 0x30#8] [0x01#8] [] [] with
      pending := .reset :: [.reset] }) (fun t =>
        decide (t.ctxs = [Ctx.idle, Ctx.idle] ∧ t.pending = [.reset] ∧ hostResult t = none)) = true := by decide

theorem test_witness_ResultHasAValueOnceACommandCompletes :
    hostResult (issueOn [] 0x0020#16 [] [] []) = none ∧
    ran (step (issueOn [] 0x0020#16 [] [] [])) (fun t => decide (hostResult t = some t.result)) = true := by decide

theorem test_witness_StepKeepsParametersAndOperands :
    ran (step (issueOn [Ctx.idle] 0x0011#16 [0x81#8] [0x02#8] [0x03#8])) (fun t =>
      decide (t.opA = [0x81#8] ∧ t.opB = [0x02#8] ∧ t.opC = [0x03#8])) = true := by decide

-- the header lengths 2, 4, 6, 8, 10, 14, each one byte short and exactly there (40_frame_decode.md R106)
theorem test_witness_DecodeHeaderFields :
    ([0x81#8] : Bytes).length < 2 ∧
    ∀ p ∈ [(0x7D, 0, 0), (0x7E, 2, 0), (0x80, 0, 1), (0xFE, 2, 1), (0x7F, 8, 0), (0xFF, 8, 1)],
      p.2.1 = (if p.1 % 128 < 126 then 0 else if p.1 % 128 = 126 then 2 else 8) ∧ p.2.2 = p.1 / 128 ∧
      decodeHeader (0x81#8 :: BitVec.ofNat 8 p.1 :: List.replicate (p.2.1 + 4 * p.2.2 - 1) 1#8) =
        (if p.2.1 + 4 * p.2.2 = 0 then decodeHeader [0x81#8, 0x7D#8] else .ok (.needMore 1)) ∧
      (match decodeHeader (0x81#8 :: BitVec.ofNat 8 p.1 :: List.replicate (p.2.1 + 4 * p.2.2) 1#8) with
       | .ok (.header h) => decide (h.hl = 2 + p.2.1 + 4 * p.2.2)
       | _ => false) = true := by decide

theorem test_witness_HdrDecodeResult :
    ((0x01#8 : BitVec 8) ≠ 0#8) ∧
    small.maxOperand < (blk small [] (List.replicate 17 0#8) [] []).opA.length ∧
    (blk small [] (List.replicate 16 0#8) [] []).opA.length ≤ small.maxOperand ∧
    (blk small [] [0x81#8] [] []).opA.length < 2 ∧
    ran (exec (.hdrDecode 0#8) (blk small [] [0x81#8, 0x7E#8, 0x00#8] [] [])) (fun t =>
      decide (t.result.status = 0x01#8 ∧ t.result.info = 1)) = true ∧
    ran (exec (.hdrDecode 0#8) (blk small [] [0x81#8, 0x7E#8, 0x01#8, 0x02#8] [] [])) (fun t =>
      decide (t.result.status = 0x00#8 ∧ t.result.hPlen = 258#64)) = true := by decide

-- a frame one byte short, and exactly there
theorem test_witness_FrameDecodeResult :
    decodeHeader [0x81#8] = .ok (.needMore 1) ∧
    decodeHeader [0x81#8, 0x02#8, 0x68#8] = .ok (.header {
      fin := 1#1, rsv := 0#3, opc := 1#4, masked := 0#1, pl := 2#64, hl := 2, key := [] }) ∧
    ran (exec (.frameDecode 0#8) (blk small [] [0x81#8, 0x02#8, 0x68#8] [] [])) (fun t =>
      decide (t.result.status = 0x01#8 ∧ t.result.info = 1)) = true ∧
    ran (exec (.frameDecode 0#8) (blk small [] [0x81#8, 0x02#8, 0x68#8, 0x69#8] [] [])) (fun t =>
      decide (t.result.status = 0x00#8 ∧ t.result.rem = [])) = true := by decide

theorem test_witness_NeedMoreCountReachesTheNextBoundary :
    ran (exec (.frameDecode 0#8) (blk small [] [0x81#8] [] [])) (fun t =>
      decide (t.result.status = 0x01#8 ∧ ([0x05#8] : Bytes).length = t.result.info)) = true ∧
    ran (exec (.frameDecode 0#8) (blk small [] [0x81#8, 0x05#8] [] [])) (fun t =>
      decide (t.result.status = 0x01#8 ∧ t.result.info = 5)) = true := by decide

theorem test_witness_HdrDecodeIgnoresTrailingBytes :
    ([0x81#8, 0x00#8] : Bytes).length + (List.replicate 14 0xFF#8 : Bytes).length ≤ small.maxOperand ∧
    ran (exec (.hdrDecode 0#8) (blk small [] [0x81#8, 0x00#8] [] [])) (fun t =>
      decide (t.result.status = 0x00#8)) = true := by decide

-- one frame of each length form, the third masked and with the longest header
def frame7 : WireFrame := { fin := 0#1, rsv := 5#3, opc := 9#4, form := .base, key := none, payload := [0x68#8, 0x69#8] }
def frame16 : WireFrame := { frame7 with fin := 1#1, form := .ext16 }
def frame64 : WireFrame := { frame7 with form := .ext64, key := some #v[0x01#8, 0x02#8, 0x03#8, 0x04#8] }

theorem test_witness_FrameDecodeInvertsFraming :
    frame7.fits = true ∧ frame16.fits = true ∧ frame64.fits = true ∧
    frame7.bytes = [0x59#8, 0x02#8, 0x68#8, 0x69#8] ∧
    frame64.bytes = [0x59#8, 0xFF#8, 0x00#8, 0x00#8, 0x00#8, 0x00#8, 0x00#8, 0x00#8, 0x00#8, 0x02#8, 0x01#8, 0x02#8,
      0x03#8, 0x04#8, 0x69#8, 0x6B#8] ∧
    (frame64.bytes ++ []).length ≤ small.maxOperand ∧ (frame16.bytes ++ [0xFF#8]).length ≤ small.maxOperand ∧
    ran (exec (.frameDecode 0#8) (blk small [] frame64.bytes [] [])) (fun t => decide (t.result.hHlen = 14#4)) = true ∧
    ran (exec (.frameDecode 0#8) (blk small [] frame16.bytes [] [])) (fun t => decide (t.result.hHlen = 4#4)) = true ∧
    ran (exec (.frameDecode 0#8) (blk small [] frame7.bytes [] [])) (fun t => decide (t.result.hHlen = 2#4)) = true := by
  decide

theorem test_witness_UnmaskResult :
    ran (exec (.unmask 0x80#8) (blk small [] [] [] [])) (fun t => decide (t.result.info = 0)) = true ∧
    ran (exec (.unmask 0#8) (blk small [] (List.replicate 17 0#8) [] [])) (fun t => decide (t.result.info = 1)) = true ∧
    ran (exec (.unmask 0#8) (blk small [] (List.replicate 16 0#8) (List.replicate 17 0#8) []))
      (fun t => decide (t.result.info = 2)) = true ∧
    ran (exec (.unmask 0#8) (blk small [] [] (List.replicate 5 0#8) [])) (fun t => decide (t.result.info = 2)) = true ∧
    ran (exec (.unmask 0#8) (blk small [] (List.replicate 16 0#8) (List.replicate 4 7#8) []))
      (fun t => decide (t.result.out = List.replicate 16 7#8)) = true := by decide

theorem test_witness_UnmaskTwiceRestoresThePayload :
    ran (exec (.unmask 0#8) (blk small [] (ascii "hello") [0xFF#8, 0xFF#8, 0xFF#8, 0xFF#8] [])) (fun t =>
      decide (t.opB.length = 4 ∧ t.result.out = [0x97#8, 0x9A#8, 0x93#8, 0x93#8, 0x90#8])) = true := by decide

theorem test_witness_SessionOpenResult :
    (blk small [Ctx.idle, Ctx.idle] [] [] []).ctxs.length ≤ (2#8 : BitVec 8).toNat ∧
    (blk small [Ctx.idle, Ctx.idle] [] [] []).ctxs[(1#8 : BitVec 8).toNat]? = some Ctx.idle ∧
    small.maxOperand < (List.replicate 17 0#8 : Bytes).length ∧
    ([] : Bytes) ≠ [0x00#8] ∧ ([] : Bytes) ≠ [0x01#8] ∧ ([0x02#8] : Bytes) ≠ [0x01#8] ∧
    [0x00#8] = [Variant.modern.code.setWidth 8] ∧ [0x01#8] = [Variant.legacy.code.setWidth 8] ∧
    (opened .modern [] []).state ≠ .idle ∧ (faulted .modern 0x30#8).state ≠ .idle ∧ Ctx.idle.state = .idle := by decide

theorem test_witness_FeedNeedsAnOpenSession :
    (blk small [Ctx.idle, faulted .modern 0x31#8] [0x81#8] [] []).ctxs[(1#8 : BitVec 8).toNat]? =
      some (faulted .modern 0x31#8) ∧ (faulted .modern 0x31#8).state ≠ .opened ∧ Ctx.idle.state ≠ .opened := by decide

-- used up; a header and a frame one byte short; PEND at its capacity and past it; a violation at offset 0 and after a
-- frame; ACC at its capacity and past it; a frame with FIN = 0 and one with FIN = 1
theorem test_witness_SessionFeedPassByPass :
    (blk small [opened .modern [] []] [] [] []).ctxs[(0#8 : BitVec 8).toNat]? = some (opened .modern [] []) ∧
    decodeHeader [0x81#8] = .ok (.needMore 1) ∧
    (faulted .modern 0x30#8).state ≠ .opened ∧ Ctx.idle.state ≠ .opened ∧
    capAdmits small.pendCap 14 = true ∧ capAdmits small.pendCap 15 = false ∧
    ran (exec (.sessionFeed 0#8) (blk small [opened .legacy (0x81#8 :: 0x0E#8 :: List.replicate 11 0#8) []] [0#8] [] []))
      (fun t => decide (t.result.status = 0x00#8)) = true ∧
    ran (exec (.sessionFeed 0#8) (blk small [opened .legacy (0x81#8 :: 0x0E#8 :: List.replicate 12 0#8) []] [0#8] [] []))
      (fun t => decide (t.result.status = 0x31#8 ∧ t.result.info = 1)) = true ∧
    ran (exec (.sessionFeed 0#8)
        (blk small [opened .modern [] []] [0x81#8, 0x80#8, 0#8, 0#8, 0#8, 0#8, 0x81#8, 0x00#8] [] []))
      (fun t => decide (t.result.status = 0x30#8 ∧ t.result.info = 6 ∧ t.result.msgs = [[]])) = true ∧
    ran (exec (.sessionFeed 0#8) (blk small [opened .legacy [] [1#8, 2#8, 3#8]] [0x01#8, 0x01#8, 4#8] [] []))
      (fun t => decide (t.result.status = 0x00#8 ∧ t.ctxs = [opened .legacy [] [1#8, 2#8, 3#8, 4#8]])) = true ∧
    ran (exec (.sessionFeed 0#8) (blk small [opened .legacy [] [1#8, 2#8, 3#8, 4#8]] [0x81#8, 0x01#8, 5#8] [] []))
      (fun t => decide (t.result.status = 0x31#8 ∧ t.result.info = 2)) = true ∧
    ran (exec (.sessionFeed 0#8) (blk small [opened .legacy [] [1#8]] [0x81#8, 0x01#8, 5#8] [] []))
      (fun t => decide (t.result.msgs = [[1#8, 5#8]])) = true := by decide

theorem test_witness_FeedReassemblesWholeFrames :
    (blk wide [opened .legacy (frame7.bytes.take 3) []] (frame7.bytes.drop 3 ++ frame16.bytes ++ [0x81#8]) [] []).opA.length
      ≤ wide.maxOperand ∧
    wide.accCap = .unbounded ∧ capAdmits wide.pendCap 1 = true ∧
    (∀ f ∈ [frame7, frame16], f.fits = true ∧ (Variant.legacy = .modern → f.key.isSome = true)) ∧
    (frame64.fits = true ∧ (Variant.modern = .modern → frame64.key.isSome = true)) ∧
    partialFrame .legacy [0x81#8] = true ∧ partialFrame .modern [] = true ∧
    frame7.bytes.take 3 ++ (frame7.bytes.drop 3 ++ frame16.bytes ++ [0x81#8]) =
      [frame7, frame16].flatMap WireFrame.bytes ++ [0x81#8] := by decide

theorem test_witness_ChunkedDeliveryKeepsFraming :
    [[0x81#8], [0x01#8], [0x41#8, 0x01#8]].flatten.length ≤ small.maxOperand ∧
    (match feedAll 0#8 [[0x81#8], [0x01#8], [0x41#8, 0x01#8]] (blk small [opened .legacy [] []] [] [] []) with
     | some (msgs, t) => decide (msgs = [[0x41#8]] ∧ t.result.status = 0x00#8)
     | none => false) = true := by decide

theorem test_witness_ChunkedDeliveryAgreesWithoutCapacities :
    [[0x81#8], [0x01#8], [0x41#8]].flatten.length ≤ wide.maxOperand ∧
    wide.pendCap = .unbounded ∧ wide.accCap = .unbounded ∧
    (match feedAll 0#8 [[0x81#8], [0x01#8], [0x41#8]] (blk wide [opened .modern [] []] [] [] []) with
     | some (msgs, t) => decide (msgs = [] ∧ t.result.status = 0x30#8)
     | none => false) = true := by decide

theorem test_witness_EmptyChunkChangesNothing :
    ctxOk small (opened .modern [0x81#8] [1#8, 2#8, 3#8, 4#8]) = true ∧ ctxOk small (opened .legacy [] []) = true := by
  decide

theorem test_witness_SessionCloseResult :
    (blk small [Ctx.idle] [] [] []).ctxs.length ≤ (1#8 : BitVec 8).toNat ∧
    (0#8 : BitVec 8).toNat < (blk small [Ctx.idle] [] [] []).ctxs.length := by decide

theorem test_witness_SessionQueryResult :
    (blk small [Ctx.idle] [] [] []).ctxs.length ≤ (1#8 : BitVec 8).toNat ∧
    (blk small [Ctx.idle] [] [] []).ctxs[(0#8 : BitVec 8).toNat]? = some Ctx.idle ∧
    ctxOk small Ctx.idle = true ∧ Ctx.idle.state = .idle := by decide

theorem test_witness_SessionFaultEffects :
    ran (exec (.sessionFeed 0#8) (blk small [opened .modern [] []] [0x81#8, 0x00#8] [] [])) (fun t =>
      decide (t.result.status = 0x30#8 ∧ t.result.info + 2 = 2)) = true ∧
    ran (exec (.sessionFeed 0#8) (blk small [opened .legacy [] [1#8, 2#8, 3#8, 4#8]] [0x81#8, 0x01#8, 5#8] [] []))
      (fun t => decide (t.result.status = 0x31#8)) = true := by decide

theorem test_witness_FaultedContextStaysUntilClosed :
    ran (step (issueOn [faulted .legacy 0x31#8, opened .modern [] []] 0x0112#16 [] [] [])) (fun t =>
      decide (t.ctxs = [faulted .legacy 0x31#8, Ctx.idle])) = true ∧
    decode 0x0112#16 = .ok (.sessionClose 1#8) := by decide

theorem test_witness_OnlySessionCommandsMoveCtxState :
    ran (step (issueOn [Ctx.idle] 0x0010#16 [0x00#8] [] [])) (fun t =>
      decide (t.ctxs = [opened .modern [] []])) = true ∧
    ran (step (issueOn [opened .modern [] []] 0x0011#16 [0x81#8, 0x00#8] [] [])) (fun t =>
      decide (t.ctxs = [faulted .modern 0x30#8])) = true ∧
    ran (step (issueOn [faulted .modern 0x30#8] 0x0012#16 [] [] [])) (fun t => decide (t.ctxs = [Ctx.idle])) = true := by
  decide

theorem test_witness_VariantFixedWhileLive :
    ran (step (issueOn [opened .legacy [] [1#8, 2#8, 3#8, 4#8]] 0x0011#16 [0x81#8, 0x01#8, 5#8] [] [])) (fun t =>
      decide (t.ctxs = [faulted .legacy 0x31#8])) = true := by decide

theorem test_witness_CommandsWriteOnlyResultAndOwnContext :
    ran (exec (.sessionFeed 1#8) (blk small [Ctx.idle, opened .legacy [] []] [0x81#8] [] [])) (fun t =>
      decide (t.ctxs = [Ctx.idle, opened .legacy [0x81#8] []])) = true ∧
    ran (exec (.sessionQuery 1#8) (blk small [Ctx.idle, opened .legacy [] []] [] [] [])) (fun t =>
      decide (t.ctxs = [Ctx.idle, opened .legacy [] []])) = true ∧ (Instr.keyReduce 0#8).isSession = false := by decide

-- the two states differ in the other context, in OPB, OPC and RESULT
theorem test_witness_ResultDependsOnlyOnUsedOperandsAndOwnContext :
    (∀ k ∈ usedOperands (.sessionFeed 0#8),
      operand (blk small [opened .legacy [] [], Ctx.idle] [0x81#8] [1#8] []) k =
        operand (blk small [opened .legacy [] [], faulted .modern 0x30#8] [0x81#8] [] [2#8]) k) ∧
    ran (exec (.sessionFeed 0#8) (blk small [opened .legacy [] [], Ctx.idle] [0x81#8] [1#8] [])) (fun _ => true) = true ∧
    ran (exec (.sessionFeed 0#8) (blk small [opened .legacy [] [], faulted .modern 0x30#8] [0x81#8] [] [2#8]))
      (fun _ => true) = true := by decide

theorem test_witness_CommandsOnDifferentContextsCommute :
    decode 0x0010#16 = .ok (.sessionOpen 0#8) ∧ decode 0x0112#16 = .ok (.sessionClose 1#8) ∧
    (Instr.sessionOpen 0#8).sid ≠ (Instr.sessionClose 1#8).sid ∧ decode 0x0040#16 = .ok (.acceptKey 0#8) := by decide

theorem test_witness_RaiseWritesOnlyStatusAndInfo :
    ran (step (issueOn [] 0x0000#16 [] [] [])) (fun t => decide (t.result.status = 0x10#8)) = true ∧
    ran (step (issueOn [] 0x0010#16 [] [] [])) (fun t => decide (t.result.status = 0x11#8)) = true ∧
    ran (step (issueOn [Ctx.idle] 0x0011#16 [] [] [])) (fun t => decide (t.result.status = 0x12#8)) = true ∧
    ran (step (issueOn [] 0x0030#16 [] [] [])) (fun t => decide (t.result.status = 0x20#8)) = true ∧
    ran (step (issueOn [opened .modern [] []] 0x0011#16 [0x81#8, 0x00#8] [] [])) (fun t =>
      decide (t.result.status = 0x30#8)) = true ∧
    ran (step (issueOn [opened .legacy [] [1#8, 2#8, 3#8, 4#8]] 0x0011#16 [0x81#8, 0x01#8, 5#8] [] [])) (fun t =>
      decide (t.result.status = 0x31#8)) = true := by decide

theorem test_witness_StatusesEachCommandCanReport :
    decode 0x0604#16 = .error (.reservedOp 0x04#8) ∧ decode 0x0031#16 = .ok (.legacyToken 0#8) ∧
    ran (step (issueOn [] 0x0031#16 [] [] (List.replicate 8 0#8))) (fun t => decide (t.result.status = 0x20#8)) = true := by
  decide

theorem test_witness_InfoOfEveryStatus :
    ran (step (issueOn [Ctx.idle] 0x0012#16 [] [] [])) (fun t => decide (t.result.status = 0x00#8)) = true ∧
    ran (step (issueOn [] 0x0001#16 [0x81#8] [] [])) (fun t =>
      decide (t.result.status = 0x01#8 ∧ t.result.info = 1)) = true ∧
    ran (step (issueOn [] 0x0041#16 [] [] [])) (fun t =>
      decide (t.result.status = 0x10#8 ∧ t.result.info = 0x41)) = true ∧
    ran (step (issueOn [] 0x0031#16 [] [] [])) (fun t => decide (t.result.status = 0x11#8 ∧ t.result.info = 3)) = true ∧
    ran (step (issueOn [Ctx.idle] 0x0110#16 [0x00#8] [] [])) (fun t =>
      decide (t.result.status = 0x11#8 ∧ t.result.info = 0)) = true ∧
    ran (step (issueOn [faulted .modern 0x30#8] 0x0011#16 [] [] [])) (fun t =>
      decide (t.result.status = 0x12#8 ∧ t.result.info = 2)) = true ∧
    ran (step (issueOn [] 0x0031#16 (ascii "1 ") (ascii "1") (List.replicate 8 0#8))) (fun t =>
      decide (t.result.status = 0x20#8 ∧ t.result.info = 0x22)) = true := by decide

theorem test_witness_InfoFitsIn64Bits :
    small.pendCap = .bytes 14 ∧ 14 + small.maxOperand ≤ 2 ^ 64 ∧
    (∀ c ∈ [opened .modern (List.replicate 14 0#8) []], c.pend.length ≤ 14) ∧
    ran (exec (.frameDecode 0#8)
        (blk small [opened .modern (List.replicate 14 0#8) []] (0x81#8 :: 0x7F#8 :: List.replicate 8 0xFF#8) [] []))
      (fun t => decide (t.result.info = 2 ^ 64 - 1)) = true := by decide

theorem test_witness_CommonChecksInOrder :
    (Instr.sessionQuery 1#8).wellFormed [Ctx.idle].length = false ∧ (Instr.unmask 1#8).wellFormed 2 = false ∧
    (Instr.legacyToken 0#8).wellFormed 0 = true ∧ 2 ∈ usedOperands (.legacyToken 0#8) ∧
    small.maxOperand < (operand (blk small [] (List.replicate 16 0#8) (List.replicate 17 0#8) []) 2).length ∧
    (∀ j ∈ usedOperands (.legacyToken 0#8), j < 2 →
      (operand (blk small [] (List.replicate 16 0#8) (List.replicate 17 0#8) []) j).length ≤ small.maxOperand) ∧
    (∀ k ∈ usedOperands (.hdrDecode 0#8), operand (blk small [] [0x81#8] (List.replicate 17 0#8) [0x02#8]) k =
      operand (blk small [] [0x81#8] [] []) k) := by decide

-- the lengths where the header's form changes (43_encode.md R187)
theorem test_witness_EncodeTextResult :
    (∀ n ∈ [0, 125, 126, 65535, 65536], (List.replicate n 0#8 : Bytes).length = n ∧ n ≤ Config.default.maxOperand) ∧
    small.maxOperand < (List.replicate 17 0#8 : Bytes).length := by
  refine ⟨?_, by decide⟩
  intro n hn
  refine ⟨List.length_replicate, ?_⟩
  simp only [List.mem_cons, List.not_mem_nil, or_false] at hn
  rcases hn with rfl | rfl | rfl | rfl | rfl <;> decide

-- the encoded frame exactly at MAX_OPERAND, and one byte past it
theorem test_witness_EncodeThenDecodeRoundTrip :
    small.legal = true ∧
    ran (exec (.encodeText 0#8) (blk small [] (List.replicate 14 0x41#8) [] [])) (fun t =>
      decide (t.result.out.length ≤ small.maxOperand)) = true ∧
    ran (exec (.encodeText 0#8) (blk small [] (List.replicate 15 0x41#8) [] [])) (fun t =>
      decide (small.maxOperand < t.result.out.length)) = true := by decide

-- V-KEY, at the bound of both variants
theorem test_witness_KeyReduceResult :
    keyReduce .quotient (ascii "  ") = .error 1 ∧ keyReduce .quotient (ascii "12") = .error 2 ∧
    keyReduce .quotient (ascii "4294967296 ") = .error 3 ∧ keyReduce .parsed (ascii "4294967296  ") = .error 3 ∧
    keyReduce .quotient (ascii "4294967296  ") = .ok 2147483648 ∧ keyReduce .parsed (ascii "4294967295 ") = .ok 4294967295 ∧
    (ascii "4294967296  ").length ≤ small.maxOperand := by decide

theorem test_witness_LegacyTokenResult :
    small.maxOperand < (operand (blk small [] [] [] (List.replicate 17 0#8)) 3).length ∧
    (∀ k ∈ [1, 2, 3], (operand (blk small [] (ascii "1  2") (ascii "3   6") (List.replicate 8 0#8)) k).length ≤
      small.maxOperand) ∧
    (ascii "01234567").length = 8 ∧ (ascii "0123456").length ≠ 8 ∧
    keyReduce small.keyBound (ascii "1  2") = .ok 6 ∧ keyReduce small.keyBound (ascii "3   6") = .ok 12 ∧
    keyReduce small.keyBound (ascii "36") = .error 2 := by decide

theorem test_witness_Md5PaddingBlocksAndWords : (List.replicate 64 0#8 : Bytes).length = 64 ∧
    padZeros 55 = 0 ∧ padZeros 56 = 63 ∧ padZeros 64 = 55 := by decide

theorem test_witness_AcceptKeyResult :
    (List.replicate (2 ^ 61 - 36) 0#8 : Bytes).length ≤ Config.default.maxOperand ∧
    2 ^ 61 ≤ (List.replicate (2 ^ 61 - 36) 0#8 : Bytes).length + 36 ∧
    (List.replicate (2 ^ 61 - 37) 0#8 : Bytes).length + 36 < 2 ^ 61 ∧
    small.maxOperand < (List.replicate 17 0#8 : Bytes).length := by
  simp only [List.length_replicate]
  decide

theorem test_witness_AcceptKeyIs28Bytes :
    (blk small [] (ascii "x") [] []).opA.length ≤ small.maxOperand ∧
    (blk small [] (ascii "x") [] []).opA.length + 36 < 2 ^ 61 := by decide

theorem test_witness_Sha1PaddingAndBlocks : 8 * (ascii "abc").length < 2 ^ 64 ∧ 8 * (2 ^ 61 - 1) < 2 ^ 64 := by decide

theorem test_witness_Sha1DigestOfEveryMessage :
    8 * (List.replicate 60 0x61#8 : Bytes).length < 2 ^ 64 ∧
    (blocks (sha1Padded (List.replicate 60 0x61#8))).length = 2 := by decide +kernel

theorem test_witness_Sha1MessageSchedule : (List.replicate 64 0x5A#8 : Bytes).length = 64 := by decide

theorem test_witness_Base64GroupsAndPadding :
    3 * 0 + 3 ≤ (ascii "abc").length ∧ 3 * 1 + 2 = (ascii "abcde").length ∧ 3 * 1 + 1 = (ascii "abcd").length ∧
    base64 (ascii "abcd") = ascii "YWJjZA==" ∧ base64 (ascii "abcde") = ascii "YWJjZGU=" := by decide

theorem test_witness_ResetSatisfiesTheInvariant :
    Config.default.legal = true ∧ small.legal = true ∧ { small with maxOperand := 14 }.legal = true ∧
    { small with maxOperand := 13 }.legal = false ∧ State.reset.inv = true := by decide

theorem test_witness_EveryStepKeepsTheInvariant :
    (issueOn [opened .modern [0x81#8, 0x85#8] [1#8, 2#8, 3#8, 4#8], faulted .legacy 0x31#8, Ctx.idle] 0x0011#16
      [0x00#8] [] []).inv = true ∧
    ran (step (issueOn [opened .modern [0x81#8, 0x85#8] [1#8, 2#8, 3#8, 4#8], faulted .legacy 0x31#8, Ctx.idle] 0x0011#16
      [0x00#8] [] [])) (fun t => t.inv) = true := by decide

end Sys2Proof.Tests
end

section
/-! The command words the decoder accepts, and the ones it calls reserved (30_encoding.md R71, R72). -/

namespace Sys2Proof

/-- The eleven values of `OP` that name a command (30_encoding.md R70). -/
def definedOps : List (BitVec 8) :=
  [0x01#8, 0x02#8, 0x03#8, 0x10#8, 0x11#8, 0x12#8, 0x13#8, 0x20#8, 0x30#8, 0x31#8, 0x40#8]

theorem mem_definedOps_iff_toNat {op : BitVec 8} :
    op ∈ definedOps ↔ op.toNat ∈ [0x01, 0x02, 0x03, 0x10, 0x11, 0x12, 0x13, 0x20, 0x30, 0x31, 0x40] := by
  simp [definedOps, ← BitVec.toNat_inj]

theorem opcode_mem_definedOps (i : Instr) : opcode i ∈ definedOps := by
  cases i <;> simp [opcode, definedOps]

theorem decode_of_mem_definedOps {w : BitVec 16} (h : opField w ∈ definedOps) : ∃ i, decode w = .ok i := by
  cases hd : decode w with
  | ok i => exact ⟨i, rfl⟩
  | error e =>
    obtain ⟨op⟩ := e
    obtain ⟨rfl, hn⟩ := decode_error hd
    exact absurd h hn

theorem decode_of_not_mem_definedOps {w : BitVec 16} (h : opField w ∉ definedOps) :
    decode w = .error (.reservedOp (opField w)) := by
  cases hd : decode w with
  | ok i => exact absurd (decode_opcode hd ▸ opcode_mem_definedOps i) h
  | error e =>
    obtain ⟨op⟩ := e
    rw [(decode_error hd).1]

end Sys2Proof
end

section
/-! The statuses each command can report (60_exceptions.md R250). -/

namespace Sys2Proof.Machine

theorem statusCode_eq_illegalCommand_iff {st : Status} : statusCode st = 0x10#8 ↔ st = .illegalCommand := by
  cases st <;> decide

/-- The statuses of a command: OK, and the ones whose 'raised by' entry names it (60_exceptions.md R250). -/
def reportable : Instr → List Status
  | .hdrDecode _ => [.ok, .badOperand, .needMore]
  | .frameDecode _ => [.ok, .badOperand, .needMore]
  | .unmask _ => [.ok, .badOperand]
  | .sessionOpen _ => [.ok, .badOperand, .sessionState]
  | .sessionFeed _ => [.ok, .badOperand, .sessionState, .protocolViolation, .bufferOverflow]
  | .sessionClose _ => [.ok, .badOperand]
  | .sessionQuery _ => [.ok, .badOperand]
  | .encodeText _ => [.ok, .badOperand]
  | .keyReduce _ => [.ok, .badOperand, .malformedKey]
  | .legacyToken _ => [.ok, .badOperand, .malformedKey]
  | .acceptKey _ => [.ok, .badOperand]

/-- No command raises `E_ILLEGAL_COMMAND` (60_exceptions.md R253). -/
theorem illegalCommand_not_mem_reportable (i : Instr) : .illegalCommand ∉ reportable i := by
  cases i <;> simp [reportable]

/-- The outcome is an answer whose `STATUS` is the code of one of these. -/
def Reports (sts : List Status) (o : Host.Outcome State Fault Refusal) : Prop :=
  ∃ t, o = .next t ∧ t.result.status ∈ sts.map statusCode

theorem reports_of_eq_complete {sts : List Status} {o : Host.Outcome State Fault Refusal} {r : Result} {s : State}
    (h : o = complete r s) (hr : r.status ∈ sts.map statusCode) : Reports sts o :=
  ⟨finish r s, h, hr⟩

theorem feed_faulted_status {cfg : Config} {c : Ctx} {chunk : Bytes} {st : Status} {info : Nat} {msgs : List Bytes}
    (h : feed cfg c chunk = .ok (.faulted st info msgs)) : st = .protocolViolation ∨ st = .bufferOverflow := by
  rw [feed_eq_feedFrom] at h
  exact (feedFrom_faulted_facts h).imp And.left And.left

/-- Every command answers, with one of its own statuses. -/
theorem exec_reports (i : Instr) (s : State) : Reports (reportable i) (exec i s) := by
  cases i with
  | hdrDecode sid =>
    rcases execHdrDecode_cases sid s with ⟨_, _, h⟩ | ⟨_, _, _, h⟩ | ⟨_, _, _, h⟩ <;>
      exact reports_of_eq_complete h (by simp [reportable])
  | frameDecode sid =>
    rcases execFrameDecode_cases sid s with ⟨_, _, h⟩ | ⟨_, _, _, h⟩ | ⟨_, _, _, _, h⟩ | ⟨_, _, _, _, h⟩ <;>
      exact reports_of_eq_complete h (by simp [reportable])
  | unmask sid =>
    rcases execUnmask_cases sid s with ⟨_, _, h⟩ | ⟨_, _, h⟩ <;>
      exact reports_of_eq_complete h (by simp [reportable])
  | sessionOpen sid =>
    rcases execSessionOpen_cases sid s with ⟨_, _, h⟩ | ⟨_, _, _, h⟩ | ⟨_, _, _, _, _, h⟩ <;>
      exact reports_of_eq_complete h (by simp [reportable])
  | sessionFeed sid =>
    rcases execSessionFeed_cases sid s with ⟨_, _, h⟩ | ⟨_, _, _, h⟩ | ⟨_, _, _, _, _, _, _, h⟩ |
      ⟨_, _, _, _, _, _, hfeed, h⟩
    · exact reports_of_eq_complete h (by simp [reportable])
    · exact reports_of_eq_complete h (by simp [reportable])
    · exact reports_of_eq_complete h (by simp [reportable])
    · rcases feed_faulted_status hfeed with rfl | rfl <;>
        exact reports_of_eq_complete h (by simp [reportable])
  | sessionClose sid =>
    rcases execSessionClose_cases sid s with h | ⟨_, _, h⟩ <;>
      exact reports_of_eq_complete h (by simp [reportable])
  | sessionQuery sid =>
    rcases execSessionQuery_cases sid s with h | ⟨_, _, h⟩ <;>
      exact reports_of_eq_complete h (by simp [reportable])
  | encodeText sid =>
    rcases execEncodeText_cases sid s with ⟨_, _, h⟩ | ⟨_, h⟩ <;>
      exact reports_of_eq_complete h (by simp [reportable])
  | keyReduce sid =>
    rcases execKeyReduce_cases sid s with ⟨_, _, h⟩ | ⟨_, _, _, _, h⟩ | ⟨_, _, _, h⟩ <;>
      exact reports_of_eq_complete h (by simp [reportable])
  | legacyToken sid =>
    rcases execLegacyToken_cases sid s with ⟨_, _, h⟩ | ⟨_, _, _, _, _, h⟩ | ⟨_, _, _, _, _, h⟩ <;>
      exact reports_of_eq_complete h (by simp [reportable])
  | acceptKey sid =>
    rcases execAcceptKey_cases sid s with ⟨_, _, h⟩ | ⟨_, h⟩ <;>
      exact reports_of_eq_complete h (by simp [reportable])

end Sys2Proof.Machine
end

section
/-! O3: the reserved opcodes. -/

namespace Sys2Proof.Machine

theorem step_issue_ok {s : State} {c : Command} {later : List HostAction} {i : Instr}
    (h : s.pending = .issue c :: later) (hd : decode c.cmd = .ok i) : step s = exec i (present s c later) := by
  rw [step_issue h, hd]

theorem step_issue_reserved {s : State} {c : Command} {later : List HostAction} {op : BitVec 8}
    (h : s.pending = .issue c :: later) (hd : decode c.cmd = .error (.reservedOp op)) :
    step s = raise .illegalCommand op.toNat (present s c later) := by
  rw [step_issue h, hd]
  rfl

/-- Settles O3: a word decodes exactly when its `OP` is in the table, no command has `E_ILLEGAL_COMMAND` among its statuses,
and the raise of a reserved `OP` writes `RESULT` alone. -/
theorem reservedOpcodesRaiseIllegalCommand : Obligations.ReservedOpcodesRaiseIllegalCommand := by
  unfold Obligations.ReservedOpcodesRaiseIllegalCommand
  rintro s c later _ hp rfl
  rw [← opField_toNat]
  constructor
  · intro hres
    have hop : opField c.cmd ∉ definedOps := by
      rw [mem_definedOps_iff_toNat]
      simp only [List.mem_cons, List.not_mem_nil, or_false]
      omega
    exact step_issue_reserved hp (decode_of_not_mem_definedOps hop)
  · intro hdef
    obtain ⟨i, hi⟩ := decode_of_mem_definedOps (mem_definedOps_iff_toNat.mpr hdef)
    obtain ⟨t, ht, hstatus⟩ := exec_reports i (present s c later)
    obtain ⟨st, hst, hcode⟩ := List.mem_map.mp hstatus
    refine ⟨t, (step_issue_ok hp hi).trans ht, fun hill => illegalCommand_not_mem_reportable i ?_⟩
    rwa [← statusCode_eq_illegalCommand_iff.mp (hcode.trans hill)]

end Sys2Proof.Machine
end

section
/-! The fields of a frame header as numbers (30_encoding.md R75 to R80; 40_frame_decode.md R103 to R107). -/

namespace Sys2Proof.Machine

/-- Big-endian order, byte by byte: byte `k` of `n` weighs `256 ^ (n - 1 - k)` (00_scope.md R15). -/
theorem be_eq_sum (b : Bytes) :
    be b = ((List.range b.length).map fun k => (b.getD k 0#8).toNat * 256 ^ (b.length - 1 - k)).sum := by
  induction b with
  | nil => rfl
  | cons x b ih =>
    rw [be_cons, ih, List.length_cons, List.range_succ_eq_map, List.map_cons, List.sum_cons, List.map_map]
    simp [Function.comp_def, Nat.sub_sub, Nat.add_comm]

theorem be_take_eq_sum {b : Bytes} {n : Nat} (h : n ≤ b.length) :
    be (b.take n) = ((List.range n).map fun k => (b.getD k 0#8).toNat * 256 ^ (n - 1 - k)).sum := by
  rw [be_eq_sum, List.length_take, Nat.min_eq_left h]
  refine congrArg List.sum (List.map_congr_left fun k hk => ?_)
  rw [List.getD_eq_getElem?_getD, List.getElem?_take_of_lt (List.mem_range.mp hk), ← List.getD_eq_getElem?_getD]

theorem finOf_toNat (b0 : Byte) : (finOf b0).toNat = b0.toNat / 128 := by
  have := b0.isLt
  simp only [finOf, BitVec.extractLsb'_toNat, Nat.shiftRight_eq_div_pow]
  omega

theorem rsvOf_toNat (b0 : Byte) : (rsvOf b0).toNat = b0.toNat / 16 % 8 := by
  simp [rsvOf, Nat.shiftRight_eq_div_pow]

theorem opcOf_toNat (b0 : Byte) : (opcOf b0).toNat = b0.toNat % 16 := by
  simp [opcOf]

theorem maskedOf_toNat (b1 : Byte) : (maskedOf b1).toNat = b1.toNat / 128 := finOf_toNat b1

theorem baseLenOf_toNat (b1 : Byte) : (baseLenOf b1).toNat = b1.toNat % 128 := by
  simp [baseLenOf]

theorem extOf_baseLenOf (b1 : Byte) :
    extOf (baseLenOf b1) = if b1.toNat % 128 < 126 then 0 else if b1.toNat % 128 = 126 then 2 else 8 := by
  rw [extOf, baseLenOf_toNat]

/-- An extended length field has at most 8 bytes, so its value fits the 64 bits of `payload_length`
(40_frame_decode.md R106). -/
theorem be_take_extOf_lt (len : BitVec 7) (b : Bytes) : be (b.take (extOf len)) < 2 ^ 64 := by
  have hext : extOf len ≤ 8 := by rcases extOf_mem len with h | h | h <;> omega
  calc be (b.take (extOf len)) < 256 ^ (b.take (extOf len)).length := be_lt _
    _ ≤ 256 ^ 8 := Nat.pow_le_pow_right (by decide) ((List.length_take_le _ _).trans hext)
    _ = 2 ^ 64 := by decide

theorem headerOf_pl_toNat {b0 b1 : Byte} {more : Bytes} (h : headerLenOf b1 ≤ more.length + 2) :
    (headerOf b0 b1 more).pl.toNat =
      if extOf (baseLenOf b1) = 0 then b1.toNat % 128
      else ((List.range (extOf (baseLenOf b1))).map fun k =>
        ((b0 :: b1 :: more).getD (2 + k) 0#8).toNat * 256 ^ (extOf (baseLenOf b1) - 1 - k)).sum := by
  have hext : extOf (baseLenOf b1) ≤ more.length := by
    unfold headerLenOf at h
    omega
  have hget (k : Nat) : (b0 :: b1 :: more).getD (2 + k) 0#8 = more.getD k 0#8 := by simp [Nat.add_comm 2]
  simp only [headerOf, hget]
  split
  · rw [BitVec.toNat_setWidth_of_le (by decide), baseLenOf_toNat]
  · rw [BitVec.toNat_ofNat, Nat.mod_eq_of_lt (be_take_extOf_lt _ _), be_take_eq_sum hext]

theorem headerOf_key {b0 b1 : Byte} {more : Bytes} :
    (headerOf b0 b1 more).key =
      if b1.toNat / 128 = 1 then ((b0 :: b1 :: more).drop (2 + extOf (baseLenOf b1))).take 4 else [] := by
  rcases maskedOf_cases b1 with h | h <;> simp [headerOf, ← maskedOf_toNat, h, Nat.add_comm 2]

/-- Settles O11: the decoder's answer on bytes 0, 1 and the rest, with each field of that header as a number. -/
theorem decodeHeaderFields : Obligations.DecodeHeaderFields := by
  unfold Obligations.DecodeHeaderFields
  refine fun b => ⟨decodeHeader_lt_two, ?_⟩
  rintro b0 b1 more _ _ _ _ rfl rfl rfl hext rfl
  rw [← extOf_baseLenOf] at hext
  subst hext
  have hhl : 2 + extOf (baseLenOf b1) + 4 * (b1.toNat / 128) = headerLenOf b1 := by
    rw [headerLenOf, maskedOf_toNat]
  rw [hhl, decodeHeader_cons]
  simp only [List.length_cons]
  constructor
  · intro hshort
    rw [if_pos hshort]
  · intro hfull
    rw [if_neg (Nat.not_lt.mpr hfull)]
    exact ⟨_, rfl, finOf_toNat b0, rsvOf_toNat b0, opcOf_toNat b0, maskedOf_toNat b1, rfl, headerOf_pl_toNat hfull,
      headerOf_key⟩

end Sys2Proof.Machine
end

section
/-! The answers of HDR_DECODE and FRAME_DECODE (40_frame_decode.md R101, R108 to R110). -/

namespace Sys2Proof.Machine

/-! The common checks of a command that is no session command (60_exceptions.md R254, R259). -/

theorem plainCommand_of_sid_ne {sid : BitVec 8} {used : List (Nat × Bytes)} {s : State}
    {body : Host.Outcome State Fault Refusal} (h : sid ≠ 0#8) :
    plainCommand sid used s body = answers s (errorResult 0x11#8 0) := if_pos h

theorem plainCommand_of_overlong {used : List (Nat × Bytes)} {s : State} {body : Host.Outcome State Fault Refusal}
    {k : Nat} (h : overlong s.cfg.maxOperand used = some k) :
    plainCommand 0#8 used s body = answers s (errorResult 0x11#8 k) := by
  rw [plainCommand, if_neg (by simp), h]
  rfl

theorem exec_hdrDecode (sid : BitVec 8) (s : State) : exec (.hdrDecode sid) s = execHdrDecode sid s := rfl

theorem exec_frameDecode (sid : BitVec 8) (s : State) : exec (.frameDecode sid) s = execFrameDecode sid s := rfl

section
variable {s : State} (hfit : s.opA.length ≤ s.cfg.maxOperand)
include hfit

theorem plainCommand_opA_ok {body : Host.Outcome State Fault Refusal} :
    plainCommand 0#8 [(1, s.opA)] s body = body :=
  plainCommand_ok (by simpa using hfit)

theorem exec_hdrDecode_needMore {k : Nat} (hd : decodeHeader s.opA = .ok (.needMore k)) :
    exec (.hdrDecode 0#8) s = answers s (errorResult 0x01#8 k) := by
  rw [exec_hdrDecode, execHdrDecode, plainCommand_opA_ok hfit, hd]
  rfl

theorem exec_hdrDecode_header {h : FrameHeader} (hd : decodeHeader s.opA = .ok (.header h)) :
    exec (.hdrDecode 0#8) s = answers s (withHeader (statusResult .ok 0) h) := by
  rw [exec_hdrDecode, execHdrDecode, plainCommand_opA_ok hfit, hd]
  rfl

theorem exec_frameDecode_needMore {k : Nat} (hd : decodeHeader s.opA = .ok (.needMore k)) :
    exec (.frameDecode 0#8) s = answers s (errorResult 0x01#8 k) := by
  rw [exec_frameDecode, execFrameDecode, plainCommand_opA_ok hfit, hd]
  rfl

theorem exec_frameDecode_short {h : FrameHeader} (hd : decodeHeader s.opA = .ok (.header h))
    (hshort : s.opA.length < frameLen h) :
    exec (.frameDecode 0#8) s =
      answers s (withHeader (statusResult .needMore (frameLen h - s.opA.length)) h) := by
  rw [exec_frameDecode, execFrameDecode, plainCommand_opA_ok hfit, hd]
  exact if_pos hshort

theorem exec_frameDecode_whole {h : FrameHeader} (hd : decodeHeader s.opA = .ok (.header h))
    (hwhole : frameLen h ≤ s.opA.length) :
    exec (.frameDecode 0#8) s =
      answers s { withHeader (statusResult .ok 0) h with
        out := payloadOf s.opA h, rem := s.opA.drop (frameLen h) } := by
  rw [exec_frameDecode, execFrameDecode, plainCommand_opA_ok hfit, hd]
  simp only [orFault_ok, if_neg (Nat.not_lt.mpr hwhole), framePayload_eq hwhole]
  rfl

end

theorem eq_ofNat_of_toNat_eq_mod {w n : Nat} {x : BitVec w} (h : x.toNat = n % 2 ^ w) : x = BitVec.ofNat w n :=
  BitVec.eq_of_toNat_eq (h.trans (BitVec.toNat_ofNat n w).symm)

/-- Settles O12: the common checks, then the record that holds the fields of O11's header. -/
theorem hdrDecodeResult : Obligations.HdrDecodeResult := by
  unfold Obligations.HdrDecodeResult
  refine fun sid s => ⟨plainCommand_of_sid_ne, ?_, ?_⟩
  · rintro rfl hlong
    exact plainCommand_of_overlong (overlong_cons_of_lt hlong)
  · rintro rfl hfit
    obtain ⟨hlt, hfields⟩ := decodeHeaderFields s.opA
    refine ⟨fun h => exec_hdrDecode_needMore hfit (hlt h), ?_⟩
    intro b0 b1 more len ext masked hl hb hlen hmasked hext hhl
    obtain ⟨hshort, hfull⟩ := hfields b0 b1 more len ext masked hl hb hlen hmasked hext hhl
    refine ⟨fun h => exec_hdrDecode_needMore hfit (hshort h), fun h => ?_⟩
    obtain ⟨hdr, hd, hfin, hrsv, hopc, hmask, hhlen, hpl, hkey⟩ := hfull h
    rw [exec_hdrDecode_header hfit hd, ← hkey, ← hpl, ← hhlen, ← hmask, ← hfin,
      ← eq_ofNat_of_toNat_eq_mod hrsv, ← eq_ofNat_of_toNat_eq_mod hopc]
    simp only [BitVec.ofNat_toNat, BitVec.setWidth_eq]
    rfl

/-- Settles O13: the common checks, then the header's count, the payload's count or the whole frame. -/
theorem frameDecodeResult : Obligations.FrameDecodeResult := by
  unfold Obligations.FrameDecodeResult
  refine fun sid s => ⟨plainCommand_of_sid_ne, ?_, ?_⟩
  · rintro rfl hlong
    exact plainCommand_of_overlong (overlong_cons_of_lt hlong)
  · rintro rfl hfit
    refine ⟨fun k hd => exec_frameDecode_needMore hfit hd, ?_⟩
    rintro h _ hd rfl
    exact ⟨exec_frameDecode_short hfit hd, exec_frameDecode_whole hfit hd⟩

end Sys2Proof.Machine
end

section
/-! The answers of UNMASK (41_unmask.md R130, R131). -/

namespace Sys2Proof.Machine

theorem exec_unmask (sid : BitVec 8) (s : State) : exec (.unmask sid) s = execUnmask sid s := rfl

section
variable {s : State} (hA : s.opA.length ≤ s.cfg.maxOperand)
include hA

theorem exec_unmask_of_overlong_key (hB : s.cfg.maxOperand < s.opB.length) :
    exec (.unmask 0#8) s = answers s (errorResult 0x11#8 2) :=
  plainCommand_of_overlong ((overlong_cons_of_le hA).trans (overlong_cons_of_lt hB))

variable (hB : s.opB.length ≤ s.cfg.maxOperand)
include hB

theorem plainCommand_opA_opB_ok {body : Host.Outcome State Fault Refusal} :
    plainCommand 0#8 [(1, s.opA), (2, s.opB)] s body = body :=
  plainCommand_ok (by simpa using ⟨hA, hB⟩)

theorem exec_unmask_of_bad_key (hkey : s.opB.length ≠ 4) :
    exec (.unmask 0#8) s = answers s (errorResult 0x11#8 2) := by
  rw [exec_unmask, execUnmask, plainCommand_opA_opB_ok hA hB]
  exact if_pos hkey

theorem exec_unmask_ok (hkey : s.opB.length = 4) :
    exec (.unmask 0#8) s = answers s { Result.null with status := 0x00#8, out := unmask s.opA s.opB } := by
  rw [exec_unmask, execUnmask, plainCommand_opA_opB_ok hA hB]
  exact if_neg (not_not_intro hkey)

end

/-- Settles O17: the common checks, the key's length, then the unmasker's length and bytes. -/
theorem unmaskResult : Obligations.UnmaskResult := by
  unfold Obligations.UnmaskResult
  refine fun sid s => ⟨plainCommand_of_sid_ne, ?_, ?_, ?_, ?_⟩
  · rintro rfl hlong
    exact plainCommand_of_overlong (overlong_cons_of_lt hlong)
  · rintro rfl hA hlong
    exact exec_unmask_of_overlong_key hA hlong
  · rintro rfl hA hB hkey
    exact exec_unmask_of_bad_key hA hB hkey
  · rintro rfl hA hB hkey
    refine ⟨_, exec_unmask_ok hA hB hkey, rfl, unmask_length _ _, fun k hk => ?_⟩
    rw [unmask_getElem?, List.getElem?_eq_getElem hk, Option.map_some]

end Sys2Proof.Machine
end

section
/-! The answers of SESSION_OPEN, SESSION_CLOSE and SESSION_QUERY (42_session.md R140, R157, R158). -/

namespace Sys2Proof.Machine

/-! The common checks of a session command (60_exceptions.md R254, R259). -/

theorem sessionCommand_of_length_le {sid : BitVec 8} {used : List (Nat × Bytes)} {s : State}
    {body : Ctx → Host.Outcome State Fault Refusal} (h : s.ctxs.length ≤ sid.toNat) :
    sessionCommand sid used s body = answers s (errorResult 0x11#8 0) := by
  rw [sessionCommand, ctxAt_eq_none.mpr h]
  rfl

theorem sessionCommand_of_overlong {sid : BitVec 8} {used : List (Nat × Bytes)} {s : State} {c : Ctx}
    {body : Ctx → Host.Outcome State Fault Refusal} {k : Nat} (hc : ctxAt s sid = some c)
    (h : overlong s.cfg.maxOperand used = some k) :
    sessionCommand sid used s body = answers s (errorResult 0x11#8 k) := by
  rw [sessionCommand, hc]
  simp only [h]
  rfl

/-- A session command that uses no operand runs its body on every context. -/
theorem sessionCommand_nil {sid : BitVec 8} {s : State} {c : Ctx} {body : Ctx → Host.Outcome State Fault Refusal}
    (hc : ctxAt s sid = some c) : sessionCommand sid [] s body = body c :=
  sessionCommand_ok hc (by simp)

/-- A session command that uses OPA runs its body when OPA fits. -/
theorem sessionCommand_opA {sid : BitVec 8} {s : State} {c : Ctx} {body : Ctx → Host.Outcome State Fault Refusal}
    (hc : ctxAt s sid = some c) (hfit : s.opA.length ≤ s.cfg.maxOperand) :
    sessionCommand sid [(1, s.opA)] s body = body c :=
  sessionCommand_ok hc (by simpa using hfit)

theorem exec_sessionOpen (sid : BitVec 8) (s : State) : exec (.sessionOpen sid) s = execSessionOpen sid s := rfl

theorem exec_sessionClose (sid : BitVec 8) (s : State) : exec (.sessionClose sid) s = execSessionClose sid s := rfl

theorem exec_sessionQuery (sid : BitVec 8) (s : State) : exec (.sessionQuery sid) s = execSessionQuery sid s := rfl

/-! The variant operand (30_encoding.md R89). -/

@[simp] theorem variantOperand_code (v : Variant) : variantOperand [v.code.setWidth 8] = some v := by
  cases v <;> rfl

theorem variantOperand_eq_none {b : Bytes} (h0 : b ≠ [0x00#8]) (h1 : b ≠ [0x01#8]) : variantOperand b = none := by
  match b with
  | [] => rfl
  | [_] => rw [variantOperand, if_neg (by simpa using h0), if_neg (by simpa using h1)]
  | _ :: _ :: _ => rfl

section
variable {sid : BitVec 8} {s : State} {c : Ctx} (hc : ctxAt s sid = some c)
include hc

theorem exec_sessionOpen_of_overlong (hlong : s.cfg.maxOperand < s.opA.length) :
    exec (.sessionOpen sid) s = answers s (errorResult 0x11#8 1) :=
  sessionCommand_of_overlong hc (overlong_cons_of_lt hlong)

/-- A bad variant operand gives `INFO` 1 whether or not it is also overlong. -/
theorem exec_sessionOpen_of_bad_variant (hv : variantOperand s.opA = none) :
    exec (.sessionOpen sid) s = answers s (errorResult 0x11#8 1) := by
  by_cases hlong : s.cfg.maxOperand < s.opA.length
  · exact exec_sessionOpen_of_overlong hc hlong
  · rw [exec_sessionOpen, execSessionOpen, sessionCommand_opA hc (Nat.not_lt.mp hlong), hv]
    rfl

theorem exec_sessionOpen_of_variant {v : Variant} (hfit : s.opA.length ≤ s.cfg.maxOperand)
    (hv : variantOperand s.opA = some v) :
    exec (.sessionOpen sid) s =
      if c.state ≠ .idle then answers s (errorResult 0x12#8 c.state.code.toNat)
      else answersCtx s sid { state := .opened, variant := v, fault := 0#8, pend := [], acc := [] }
        { Result.null with status := 0x00#8 } := by
  rw [exec_sessionOpen, execSessionOpen, sessionCommand_opA hc hfit, hv]
  rfl

end

/-- Settles O19: the common checks, the variant operand, then the state of the context. -/
theorem sessionOpenResult : Obligations.SessionOpenResult := by
  unfold Obligations.SessionOpenResult
  refine fun sid s => ⟨sessionCommand_of_length_le, fun c hc => ⟨exec_sessionOpen_of_overlong hc, ?_, ?_⟩⟩
  · exact fun h0 h1 => exec_sessionOpen_of_bad_variant hc (variantOperand_eq_none h0 h1)
  · intro v hfit hv
    rw [exec_sessionOpen_of_variant hc hfit (hv ▸ variantOperand_code v)]
    exact ⟨fun hbusy => if_pos hbusy, fun hidle => if_neg (not_not_intro hidle)⟩

/-- Settles O26: past the SID check SESSION_CLOSE has one answer. -/
theorem sessionCloseResult : Obligations.SessionCloseResult := by
  unfold Obligations.SessionCloseResult
  refine fun sid s => ⟨fun hle => ?_, fun hlt => ?_⟩
  · rw [exec_sessionClose, execSessionClose, sessionCommand_of_length_le hle]
  · have hc : ctxAt s sid = some s.ctxs[sid.toNat] := List.getElem?_eq_getElem hlt
    exact sessionCommand_nil hc

theorem ctxOk_idle {cfg : Config} {c : Ctx} (hok : ctxOk cfg c = true) (hidle : c.state = .idle) : c = Ctx.idle := by
  simpa [ctxOk, hidle] using hok

/-- Settles O27: past the SID check SESSION_QUERY has one answer; a sound IDLE context is the null one. -/
theorem sessionQueryResult : Obligations.SessionQueryResult := by
  unfold Obligations.SessionQueryResult
  refine fun sid s => ⟨fun hle => ?_, fun c hc => ⟨sessionCommand_nil hc, fun hok hidle => ?_⟩⟩
  · rw [exec_sessionQuery, execSessionQuery, sessionCommand_of_length_le hle]
  · obtain rfl := ctxOk_idle hok hidle
    exact sessionCommand_nil hc

end Sys2Proof.Machine
end

section
/-! The answers of SESSION_FEED (42_session.md R142, R145, R149). -/

namespace Sys2Proof.Machine

theorem exec_sessionFeed (sid : BitVec 8) (s : State) : exec (.sessionFeed sid) s = execSessionFeed sid s := rfl

theorem exec_sessionFeed_not_opened {sid : BitVec 8} {s : State} {c : Ctx} (hc : ctxAt s sid = some c)
    (hfit : s.opA.length ≤ s.cfg.maxOperand) (hstate : c.state ≠ .opened) :
    exec (.sessionFeed sid) s = answers s (errorResult 0x12#8 c.state.code.toNat) := by
  rw [exec_sessionFeed, execSessionFeed, sessionCommand_opA hc hfit]
  exact if_pos hstate

/-- Settles O20: the check of the session state comes before the feed. -/
theorem feedNeedsAnOpenSession : Obligations.FeedNeedsAnOpenSession := by
  unfold Obligations.FeedNeedsAnOpenSession
  exact fun _ _ _ hc hfit hstate => exec_sessionFeed_not_opened hc hfit hstate

/-! What the start of the stream decides. -/

theorem partialFrame_of_needMore {v : Variant} {b : Bytes} {k : Nat} (hd : decodeHeader b = .ok (.needMore k)) :
    partialFrame v b = true := by
  simp [partialFrame, hd]

theorem partialFrame_of_header {v : Variant} {b : Bytes} {h : FrameHeader} (hd : decodeHeader b = .ok (.header h))
    (hm : ¬(h.masked = 0#1 ∧ v = .modern)) (hl : b.length < frameLen h) : partialFrame v b = true := by
  simpa [partialFrame, hd, hl, imp_iff_not_or] using hm

theorem ne_nil_of_decodeHeader {b : Bytes} {h : FrameHeader} (hd : decodeHeader b = .ok (.header h)) : b ≠ [] := by
  obtain ⟨b0, b1, more, rfl, -, -⟩ := decodeHeader_header hd
  exact List.cons_ne_nil _ _

theorem feedFrom_frame_overflow {cfg : Config} {v : Variant} {off : Nat} {rest acc : Bytes} {msgs : List Bytes}
    {h : FrameHeader} (hf : CompleteFrame v rest h) (hcap : capAdmits cfg.accCap (acc.length + h.pl.toNat) = false) :
    feedFrom cfg v off rest acc msgs = .ok (.faulted .bufferOverflow 2 msgs) := by
  rw [feedFrom_frame hf, if_neg (by simp [hcap])]

/-- A frame that fits is consumed; the feed goes on as one that starts afresh on the rest of the stream, up to the offset
and the messages emitted before (42_session.md R149). -/
theorem feedFrom_frame_shift {cfg : Config} {v : Variant} {rest acc : Bytes} {h : FrameHeader}
    (hf : CompleteFrame v rest h) (hcap : capAdmits cfg.accCap (acc.length + h.pl.toNat) = true) :
    feedFrom cfg v 0 rest acc [] =
      (feedFrom cfg v 0 (rest.drop (frameLen h)) (afterFrame h (payloadOf rest h) acc []).1 []).map
        (FeedEnd.shift (frameLen h) (afterFrame h (payloadOf rest h) acc []).2) := by
  rw [feedFrom_frame hf, if_pos hcap, Nat.zero_add, feedFrom_eq_shift]

/-- What a frame leaves in `ACC`, and what it emits (42_session.md R146, R147). -/
theorem afterFrame_nil (h : FrameHeader) (p acc : Bytes) :
    afterFrame h p acc [] = (if h.fin = 1#1 then [] else acc ++ p, if h.fin = 1#1 then [acc ++ p] else []) := by
  unfold afterFrame
  split <;> rfl

/-! What the end of the loop makes of the block. -/

/-- The answer of a feed whose loop ends so (42_session.md R149). -/
def feedAnswer (sid : BitVec 8) (c : Ctx) (s : State) : FeedEnd → Host.Outcome State Fault Refusal
  | .done pend acc msgs =>
    answersCtx s sid { c with pend := pend, acc := acc } { Result.null with status := 0x00#8, msgs := msgs }
  | .faulted st info msgs =>
    answersCtx s sid { c with state := .faulted, fault := statusCode st, pend := [], acc := [] }
      { errorResult (statusCode st) info with msgs := msgs }

/-- A feed of an OPEN context is the answer of the loop's end. -/
theorem exec_sessionFeed_opened {sid : BitVec 8} {s : State} {c : Ctx} {e : FeedEnd} (hc : ctxAt s sid = some c)
    (hfit : s.opA.length ≤ s.cfg.maxOperand) (ho : c.state = .opened)
    (he : feedFrom s.cfg c.variant 0 (c.pend ++ s.opA) c.acc [] = .ok e) :
    exec (.sessionFeed sid) s = feedAnswer sid c s e := by
  obtain ⟨e', he', hexec⟩ := execSessionFeed_open hc ho hfit
  obtain rfl : e' = e := Except.ok.inj (he'.symm.trans he)
  rw [exec_sessionFeed, hexec]
  cases e' <;> rfl

theorem feedAnswer_feedStore (sid : BitVec 8) (c : Ctx) (s : State) (tail : Bytes) :
    feedAnswer sid c s (feedStore s.cfg tail c.acc []) =
      if capAdmits s.cfg.pendCap tail.length then
        answersCtx s sid { c with pend := tail } { Result.null with status := 0x00#8 }
      else feedAnswer sid c s (.faulted .bufferOverflow 1 []) := by
  unfold feedStore
  split <;> rfl

/-- The state a feed of the rest of the stream starts from: the context as the consumed frame leaves it, and no chunk. -/
def afterConsumed (sid : BitVec 8) (c : Ctx) (s : State) (pend acc : Bytes) : State :=
  { s with ctxs := s.ctxs.set sid.toNat { c with pend := pend, acc := acc }, opA := [] }

theorem ctxAt_afterConsumed {sid : BitVec 8} {c : Ctx} {s : State} (hlt : sid.toNat < s.ctxs.length)
    (pend acc : Bytes) : ctxAt (afterConsumed sid c s pend acc) sid = some { c with pend := pend, acc := acc } := by
  simp [ctxAt, afterConsumed, hlt]

/-- The next state of a feed that goes on from another: the offset of a violation moves by `off`, the messages `before` stand
in front, and the chunk is the whole feed's. -/
def resumed (s : State) (off : Nat) (before : List Bytes) (t : State) : State :=
  { t with
    opA := s.opA
    result := { t.result with
      info := if t.result.status = 0x30#8 then off + t.result.info else t.result.info
      msgs := before ++ t.result.msgs } }

theorem statusCode_eq_protocolViolation_iff {st : Status} : statusCode st = 0x30#8 ↔ st = .protocolViolation := by
  cases st <;> decide

/-- Resuming a feed shifts its loop's end. -/
theorem feedAnswer_shift (sid : BitVec 8) (c : Ctx) (s : State) (pend acc : Bytes) (off : Nat) (before : List Bytes)
    (e : FeedEnd) :
    ∃ t, feedAnswer sid { c with pend := pend, acc := acc } (afterConsumed sid c s pend acc) e = .next t ∧
      feedAnswer sid c s (e.shift off before) = .next (resumed s off before t) := by
  cases e with
  | done pend' acc' msgs => exact ⟨_, rfl, by simp [feedAnswer, FeedEnd.shift, answersCtx, resumed, afterConsumed]⟩
  | faulted st info msgs =>
    exact ⟨_, rfl, by simp [feedAnswer, FeedEnd.shift, answersCtx, errorResult, resumed, afterConsumed,
      statusCode_eq_protocolViolation_iff]⟩

/-- A feed whose stream starts with a frame that fits is the feed of the rest, resumed (42_session.md R149). -/
theorem exec_sessionFeed_frame {sid : BitVec 8} {s : State} {c : Ctx} {h : FrameHeader} (hc : ctxAt s sid = some c)
    (hfit : s.opA.length ≤ s.cfg.maxOperand) (ho : c.state = .opened)
    (hf : CompleteFrame c.variant (c.pend ++ s.opA) h)
    (hcap : capAdmits s.cfg.accCap (c.acc.length + h.pl.toNat) = true) {acc : Bytes} {emitted : List Bytes}
    (hafter : afterFrame h (payloadOf (c.pend ++ s.opA) h) c.acc [] = (acc, emitted)) :
    ∃ t, exec (.sessionFeed sid) (afterConsumed sid c s ((c.pend ++ s.opA).drop (frameLen h)) acc) = .next t ∧
      exec (.sessionFeed sid) s = .next (resumed s (frameLen h) emitted t) := by
  obtain ⟨e, he⟩ := feedFrom_total s.cfg c.variant 0 ((c.pend ++ s.opA).drop (frameLen h)) acc []
  have hwhole : feedFrom s.cfg c.variant 0 (c.pend ++ s.opA) c.acc [] = .ok (e.shift (frameLen h) emitted) := by
    rw [feedFrom_frame_shift hf hcap, hafter, he]
    rfl
  have hctx := ctxAt_afterConsumed (c := c) (ctxAt_lt hc) ((c.pend ++ s.opA).drop (frameLen h)) acc
  have hrest := exec_sessionFeed_opened (e := e) hctx (Nat.zero_le _) ho (by simpa [afterConsumed] using he)
  rw [exec_sessionFeed_opened hc hfit ho hwhole, hrest]
  exact feedAnswer_shift ..

/-- Settles O21: the loop's end for each start of the stream, and for a frame that fits the feed of the rest, resumed. -/
theorem sessionFeedPassByPass : Obligations.SessionFeedPassByPass := by
  unfold Obligations.SessionFeedPassByPass
  rintro sid s c _ hc hfit rfl
  refine ⟨exec_sessionFeed_not_opened hc hfit, ?_⟩
  rintro _ _ rfl rfl ho
  have hend {e : FeedEnd} := exec_sessionFeed_opened (e := e) hc hfit ho
  have hstore (hne : c.pend ++ s.opA ≠ []) (hp : partialFrame c.variant (c.pend ++ s.opA) = true) :=
    (hend (feedFrom_partial hne hp)).trans (feedAnswer_feedStore sid c s _)
  refine ⟨fun hnil => hend (e := .done [] c.acc []) (by rw [hnil, feedFrom_nil]),
    fun k hne hd => hstore hne (partialFrame_of_needMore hd), ?_⟩
  intro h hd
  refine ⟨fun hm hv => hend (feedFrom_violation hd ⟨hm, hv⟩),
    fun hm hl => hstore (ne_nil_of_decodeHeader hd) (partialFrame_of_header hd hm hl), fun hm hl => ?_⟩
  have hf : CompleteFrame c.variant (c.pend ++ s.opA) h := ⟨hd, hm, hl⟩
  refine ⟨fun hcap => hend (feedFrom_frame_overflow hf hcap), ?_⟩
  rintro _ _ _ _ rfl rfl rfl rfl hcap
  exact exec_sessionFeed_frame hc hfit ho hf hcap (afterFrame_nil ..)

end Sys2Proof.Machine
end

section
/-! The answers of ENCODE_TEXT (43_encode.md R180, R181). -/

namespace Sys2Proof.Machine

theorem exec_encodeText (sid : BitVec 8) (s : State) : exec (.encodeText sid) s = execEncodeText sid s := rfl

theorem exec_encodeText_ok {s : State} (hfit : s.opA.length ≤ s.cfg.maxOperand) :
    exec (.encodeText 0#8) s =
      answers s { Result.null with status := 0x00#8, out := textHeader s.opA.length ++ s.opA } := by
  rw [exec_encodeText, execEncodeText, plainCommand_opA_ok hfit]
  rfl

/-! The three length forms of the header, byte by byte (43_encode.md R180). -/

theorem textHeader_of_le_125 {n : Nat} (h : n ≤ 125) : textHeader n = [0x81#8, BitVec.ofNat 8 n] := if_pos h

theorem textHeader_of_ext16 {n : Nat} (hlo : 126 ≤ n) (hhi : n ≤ 65535) :
    textHeader n = [0x81#8, 0x7E#8, BitVec.ofNat 8 (n / 256), BitVec.ofNat 8 n] := by
  rw [textHeader, if_neg (by omega), if_pos hhi]
  simp [textByte0, beBytes]

theorem textHeader_of_ext64 {n : Nat} (hlo : 65536 ≤ n) :
    textHeader n = [0x81#8, 0x7F#8, BitVec.ofNat 8 (n / 256 ^ 7), BitVec.ofNat 8 (n / 256 ^ 6),
      BitVec.ofNat 8 (n / 256 ^ 5), BitVec.ofNat 8 (n / 256 ^ 4), BitVec.ofNat 8 (n / 256 ^ 3),
      BitVec.ofNat 8 (n / 256 ^ 2), BitVec.ofNat 8 (n / 256), BitVec.ofNat 8 n] := by
  rw [textHeader, if_neg (by omega), if_neg (by omega)]
  simp [textByte0, beBytes]

/-- Settles O40: the common checks, then the header in the form its length selects. -/
theorem encodeTextResult : Obligations.EncodeTextResult := by
  unfold Obligations.EncodeTextResult
  rintro sid s _ rfl
  refine ⟨plainCommand_of_sid_ne, ?_, ?_⟩
  · rintro rfl hlong
    exact plainCommand_of_overlong (overlong_cons_of_lt hlong)
  · rintro rfl hfit
    exact ⟨_, exec_encodeText_ok hfit, textHeader_of_le_125, textHeader_of_ext16, textHeader_of_ext64⟩

end Sys2Proof.Machine
end

section
/-! MD5: padding, blocks, words and the compression of a block (44_legacy_token.md R200 to R202). -/

namespace Sys2Proof.Machine

/-- Little-endian order, byte by byte: byte `k` weighs `256 ^ k` (00_scope.md R15). -/
theorem le_eq_sum (b : Bytes) : le b = ((List.range b.length).map fun k => (b.getD k 0#8).toNat * 256 ^ k).sum := by
  induction b with
  | nil => rfl
  | cons x b ih =>
    rw [le_cons, ih, List.length_cons, List.range_succ_eq_map, List.map_cons, List.sum_cons, List.map_map,
      ← List.sum_map_mul_left]
    simp [Function.comp_def, Nat.pow_succ, Nat.mul_assoc, Nat.mul_comm]

/-- `le_bytes(v, n)`, byte by byte: byte `k` is the one of weight `256 ^ k` (00_scope.md R15). -/
theorem leBytes_eq_map (v n : Nat) : leBytes v n = (List.range n).map fun k => BitVec.ofNat 8 (v / 256 ^ k) := by
  induction n generalizing v with
  | zero => rfl
  | succ n ih =>
    rw [leBytes, ih, List.range_succ_eq_map, List.map_cons, List.map_map]
    simp [Function.comp_def, Nat.pow_succ', Nat.div_div_eq_div_mul]

/-- The four bytes of word `j` stand in the block from byte `4j` on (44_legacy_token.md R200). -/
theorem le_wordBytes {b : Bytes} {j : Nat} (h : 4 * j + 4 ≤ b.length) :
    le (wordBytes b j) = ((List.range 4).map fun k => (b.getD (4 * j + k) 0#8).toNat * 256 ^ k).sum := by
  rw [le_eq_sum, wordBytes_length h]
  refine congrArg List.sum (List.map_congr_left fun k hk => ?_)
  simp [wordBytes, List.getElem?_take_of_lt (List.mem_range.mp hk)]

theorem md5Words_length (b : Bytes) : (md5Words b).length = 16 := by
  simp [md5Words]

theorem md5Words_getD {j : Nat} (b : Bytes) (hj : j < 16) :
    (md5Words b).getD j 0#32 = BitVec.ofNat 32 (le (wordBytes b j)) := by
  simp [md5Words, hj]

theorem md5Words_getD_toNat {b : Bytes} {j : Nat} (hb : b.length = 64) (hj : j < 16) :
    ((md5Words b).getD j 0#32).toNat =
      ((List.range 4).map fun k => (b.getD (4 * j + k) 0#8).toNat * 256 ^ k).sum := by
  have hin : 4 * j + 4 ≤ b.length := by omega
  have hlt : le (wordBytes b j) < 2 ^ 32 := by
    have h := le_lt (wordBytes b j)
    rwa [wordBytes_length hin] at h
  rw [md5Words_getD b hj, BitVec.toNat_ofNat, Nat.mod_eq_of_lt hlt, le_wordBytes hin]

theorem md5Padded_length_mod (m : Bytes) : (md5Padded m).length % 64 = 0 := padded_length_mod (leBytes_length _ _)

/-- Settles O44: the count of zeros is `padZeros`, and a padded message is whole blocks. -/
theorem md5PaddingBlocksAndWords : Obligations.Md5PaddingBlocksAndWords := by
  unfold Obligations.Md5PaddingBlocksAndWords
  refine fun m => ⟨⟨padZeros m.length, ?_, padZeros_least m.length⟩, blocks_flatten (md5Padded_length_mod m),
    fun _ => blocks_length, fun b hb => ⟨md5Words_length b, fun _ => md5Words_getD_toNat hb⟩⟩
  simp [md5Padded, padded, leBytes_eq_map, List.range_succ]

/-! The function and the word of a round, quarter by quarter (44_legacy_token.md R202). -/

section
variable {i : Nat} (b c d : Word32)

theorem md5F_md5G_of_le_15 (h : i ≤ 15) : md5F i b c d = (b &&& c) ||| (~~~b &&& d) ∧ md5G i = i :=
  ⟨if_pos h, if_pos h⟩

theorem md5F_md5G_of_le_31 (hlo : 16 ≤ i) (hhi : i ≤ 31) :
    md5F i b c d = (b &&& d) ||| (c &&& ~~~d) ∧ md5G i = (5 * i + 1) % 16 := by
  have h15 : ¬i ≤ 15 := by omega
  simp [md5F, md5G, h15, hhi]

theorem md5F_md5G_of_le_47 (hlo : 32 ≤ i) (hhi : i ≤ 47) :
    md5F i b c d = b ^^^ c ^^^ d ∧ md5G i = (3 * i + 5) % 16 := by
  have h15 : ¬i ≤ 15 := by omega
  have h31 : ¬i ≤ 31 := by omega
  simp [md5F, md5G, h15, h31, hhi]

theorem md5F_md5G_of_ge_48 (hlo : 48 ≤ i) : md5F i b c d = c ^^^ (b ||| ~~~d) ∧ md5G i = (7 * i) % 16 := by
  have h15 : ¬i ≤ 15 := by omega
  have h31 : ¬i ≤ 31 := by omega
  have h47 : ¬i ≤ 47 := by omega
  simp [md5F, md5G, h15, h31, h47]

end

/-- Settles O45: the states are the rounds run in order from the chaining state. -/
theorem md5CompressionRecurrence : Obligations.Md5CompressionRecurrence := by
  unfold Obligations.Md5CompressionRecurrence
  exact fun st block => ⟨roundsFrom (md5Round (md5Words block)) st, rfl,
    fun i _ => ⟨_, md5G i, md5F_md5G_of_le_15 _ _ _, md5F_md5G_of_le_31 _ _ _, md5F_md5G_of_le_47 _ _ _,
      md5F_md5G_of_ge_48 _ _ _, rfl⟩,
    by rw [md5Block, foldl_range_eq_roundsFrom]⟩

/-- The digest of the last chaining state: its four words, least significant byte first (44_legacy_token.md R205). -/
theorem md5_of_foldl {m : Bytes} {st : Md5State} (h : (blocks (md5Padded m)).foldl md5Block md5Init = st) :
    md5 m = [st.a, st.b, st.c, st.d].flatMap fun x => leBytes x.toNat 4 := by
  simp [md5, h]

theorem leBytes_four (v : Nat) :
    leBytes v 4 = [BitVec.ofNat 8 v, BitVec.ofNat 8 (v / 256), BitVec.ofNat 8 (v / 256 ^ 2),
      BitVec.ofNat 8 (v / 256 ^ 3)] := by
  simp [leBytes_eq_map, List.range_succ]

/-- Settles O58: the chain takes the blocks of the padded message from the initial state on. -/
theorem md5DigestOfEveryMessage : Obligations.Md5DigestOfEveryMessage := by
  unfold Obligations.Md5DigestOfEveryMessage
  refine fun m => ⟨chainFrom md5Block md5Init (blocks (md5Padded m)), rfl, chainFrom_succ _ _ _, ?_⟩
  rintro _ rfl
  simp only [chainFrom_length, ← leBytes_four]
  exact md5_of_foldl rfl

end Sys2Proof.Machine
end

section
/-! The answers of KEY_REDUCE and LEGACY_TOKEN (44_legacy_token.md R190 to R198). -/

namespace Sys2Proof.Machine

/-! The digits as a number (44_legacy_token.md R190, R192). -/

theorem digitValue_append_singleton (d : Bytes) (x : Byte) :
    digitValue (d ++ [x]) = 10 * digitValue d + (x.toNat - 0x30) := by
  simp [digitValue]

/-- The digits read as a decimal number, digit by digit: each later digit multiplies the weights before it by 10. -/
theorem digitValue_eq_sum (d : Bytes) :
    digitValue d =
      ((List.range d.length).map fun j => ((d.getD j 0#8).toNat - 0x30) * 10 ^ (d.length - 1 - j)).sum := by
  induction d using List.reverseRecOn with
  | nil => rfl
  | append_singleton d x ih =>
    have hbefore (j : Nat) (hj : j ∈ List.range d.length) :
        10 * (((d.getD j 0#8).toNat - 0x30) * 10 ^ (d.length - 1 - j)) =
          (((d ++ [x]).getD j 0#8).toNat - 0x30) * 10 ^ (d.length - j) := by
      have hlt := List.mem_range.mp hj
      rw [List.getD_append _ _ _ _ hlt, show d.length - j = d.length - 1 - j + 1 by omega, Nat.pow_succ]
      ac_rfl
    rw [digitValue_append_singleton, ih, ← List.sum_map_mul_left, List.map_congr_left hbefore]
    simp [List.range_succ]

theorem isDigit_eq : isDigit = fun b => decide (0x30 ≤ b.toNat ∧ b.toNat ≤ 0x39) := by
  funext b
  simp [isDigit]

theorem countP_isSpace (key : Bytes) :
    key.countP isSpace = (key.filter fun b => decide (b = 0x20#8)).length := List.countP_eq_length_filter

theorem keyOverflow_iff {bound : KeyBound} {n q : Nat} :
    keyOverflow bound n q = true ↔ (bound = .quotient ∧ 2 ^ 32 ≤ q) ∨ (bound = .parsed ∧ 2 ^ 32 ≤ n) := by
  cases bound <;> simp [keyOverflow]

/-! What `KeyReduce` answers, check by check (44_legacy_token.md R194). -/

section
variable {bound : KeyBound} {key : Bytes}

theorem keyReduce_of_no_digits (hd : key.filter isDigit = []) : keyReduce bound key = .error 1 := by
  simp only [keyReduce, hd, List.length_nil, if_true]

theorem keyReduce_of_digits (hd : key.filter isDigit ≠ []) :
    keyReduce bound key =
      if key.countP isSpace = 0 then .error 2
      else if keyOverflow bound (digitValue (key.filter isDigit))
          (digitValue (key.filter isDigit) / key.countP isSpace) then .error 3
      else .ok (digitValue (key.filter isDigit) / key.countP isSpace) :=
  if_neg fun h => hd (List.length_eq_zero_iff.mp h)

end

/-! The two commands on operands that pass the common checks. -/

theorem exec_keyReduce (sid : BitVec 8) (s : State) : exec (.keyReduce sid) s = execKeyReduce sid s := rfl

theorem exec_legacyToken (sid : BitVec 8) (s : State) : exec (.legacyToken sid) s = execLegacyToken sid s := rfl

section
variable {s : State} (hfit : s.opA.length ≤ s.cfg.maxOperand)
include hfit

theorem exec_keyReduce_of_error {c : Nat} (hk : keyReduce s.cfg.keyBound s.opA = .error c) :
    exec (.keyReduce 0#8) s = answers s (errorResult 0x20#8 (0x10 + c)) := by
  rw [exec_keyReduce, execKeyReduce, plainCommand_opA_ok hfit, hk]
  rfl

theorem exec_keyReduce_of_ok {q : Nat} (hk : keyReduce s.cfg.keyBound s.opA = .ok q) :
    exec (.keyReduce 0#8) s = answers s { Result.null with status := 0x00#8, val := BitVec.ofNat 32 q } := by
  rw [exec_keyReduce, execKeyReduce, plainCommand_opA_ok hfit, hk]
  rfl

end

/-- Settles O42: the common checks, then the answer of `KeyReduce`, whose checks are taken in their order. -/
theorem keyReduceResult : Obligations.KeyReduceResult := by
  unfold Obligations.KeyReduceResult
  rintro sid s d spaces n q hd hspaces hn rfl
  rw [← isDigit_eq] at hd
  rw [← countP_isSpace] at hspaces
  rw [← digitValue_eq_sum] at hn
  subst hd hspaces hn
  refine ⟨plainCommand_of_sid_ne, ?_, ?_⟩
  · rintro rfl hlong
    exact plainCommand_of_overlong (overlong_cons_of_lt hlong)
  · rintro rfl hfit
    have herror {c : Nat} (hk : keyReduce s.cfg.keyBound s.opA = .error c) :=
      And.intro hk (exec_keyReduce_of_error hfit hk)
    have hok {q : Nat} (hk : keyReduce s.cfg.keyBound s.opA = .ok q) :=
      And.intro ((keyReduce_facts _ _).2 q hk) (And.intro hk (exec_keyReduce_of_ok hfit hk))
    refine ⟨fun hd => herror (keyReduce_of_no_digits hd), fun hd hs => herror ?_, fun hd hs hover => herror ?_,
      fun hd hs hfits => hok ?_⟩
    · rw [keyReduce_of_digits hd, if_pos hs]
    · rw [keyReduce_of_digits hd, if_neg hs, if_pos (keyOverflow_iff.mpr hover)]
    · rw [keyReduce_of_digits hd, if_neg hs, if_neg (mt keyOverflow_iff.mp hfits)]

/-! LEGACY_TOKEN (44_legacy_token.md R196, R198). -/

theorem beBytes_four (v : Nat) :
    beBytes v 4 = [BitVec.ofNat 8 (v / 256 ^ 3), BitVec.ofNat 8 (v / 256 ^ 2), BitVec.ofNat 8 (v / 256),
      BitVec.ofNat 8 v] := by
  simp [beBytes]

/-- The lowest-numbered overlong operand of three is the one that is reported (60_exceptions.md R254). -/
theorem overlong_operands {s : State} {m k : Nat} (hk : k ∈ [1, 2, 3]) (hlong : m < (operand s k).length)
    (hbefore : ∀ j ∈ [1, 2, 3], j < k → (operand s j).length ≤ m) :
    overlong m [(1, s.opA), (2, s.opB), (3, s.opC)] = some k := by
  simp only [List.mem_cons, List.not_mem_nil, or_false] at hk
  rcases hk with rfl | rfl | rfl
  · exact overlong_cons_of_lt hlong
  · have hA : s.opA.length ≤ m := hbefore 1 (by simp) (by simp)
    exact (overlong_cons_of_le hA).trans (overlong_cons_of_lt hlong)
  · have hA : s.opA.length ≤ m := hbefore 1 (by simp) (by simp)
    have hB : s.opB.length ≤ m := hbefore 2 (by simp) (by simp)
    exact (overlong_cons_of_le hA).trans ((overlong_cons_of_le hB).trans (overlong_cons_of_lt hlong))

section
variable {s : State} (hfit : ∀ k ∈ [1, 2, 3], (operand s k).length ≤ s.cfg.maxOperand)
include hfit

theorem plainCommand_operands_ok {body : Host.Outcome State Fault Refusal} :
    plainCommand 0#8 [(1, s.opA), (2, s.opB), (3, s.opC)] s body = body :=
  plainCommand_ok (by simpa [operand] using hfit)

theorem exec_legacyToken_of_bad_nonce (hnonce : s.opC.length ≠ nonceLength) :
    exec (.legacyToken 0#8) s = answers s (errorResult 0x11#8 3) := by
  rw [exec_legacyToken, execLegacyToken, plainCommand_operands_ok hfit]
  exact if_pos hnonce

variable (hnonce : s.opC.length = nonceLength)
include hnonce

theorem exec_legacyToken_of_error_key1 {c : Nat} (h1 : keyReduce s.cfg.keyBound s.opA = .error c) :
    exec (.legacyToken 0#8) s = answers s (errorResult 0x20#8 (0x10 + c)) := by
  rw [exec_legacyToken, execLegacyToken, plainCommand_operands_ok hfit, if_neg (not_not_intro hnonce), h1]
  rfl

theorem exec_legacyToken_of_error_key2 {q1 c : Nat} (h1 : keyReduce s.cfg.keyBound s.opA = .ok q1)
    (h2 : keyReduce s.cfg.keyBound s.opB = .error c) :
    exec (.legacyToken 0#8) s = answers s (errorResult 0x20#8 (0x20 + c)) := by
  rw [exec_legacyToken, execLegacyToken, plainCommand_operands_ok hfit, if_neg (not_not_intro hnonce), h1, h2]
  rfl

theorem exec_legacyToken_of_ok {q1 q2 : Nat} (h1 : keyReduce s.cfg.keyBound s.opA = .ok q1)
    (h2 : keyReduce s.cfg.keyBound s.opB = .ok q2) :
    exec (.legacyToken 0#8) s =
      answers s { Result.null with status := 0x00#8, out := md5 (tokenInput q1 q2 s.opC) } := by
  rw [exec_legacyToken, execLegacyToken, plainCommand_operands_ok hfit, if_neg (not_not_intro hnonce), h1, h2]
  rfl

end

/-- Settles O43: the common checks, the nonce's length, then the two keys in order. -/
theorem legacyTokenResult : Obligations.LegacyTokenResult := by
  unfold Obligations.LegacyTokenResult
  refine fun sid s => ⟨plainCommand_of_sid_ne, ?_, ?_⟩
  · rintro k rfl hk hlong hbefore
    exact plainCommand_of_overlong (overlong_operands hk hlong hbefore)
  · rintro rfl hfit
    refine ⟨exec_legacyToken_of_bad_nonce hfit, fun hnonce => ⟨fun _ => exec_legacyToken_of_error_key1 hfit hnonce,
      fun _ _ => exec_legacyToken_of_error_key2 hfit hnonce, fun q1 q2 h1 h2 => ?_⟩⟩
    rw [exec_legacyToken_of_ok hfit hnonce h1 h2, tokenInput, beBytes_four, beBytes_four]

end Sys2Proof.Machine
end

section
/-! The answers of ACCEPT_KEY (45_accept_key.md R220, R229). -/

namespace Sys2Proof.Machine

theorem exec_acceptKey (sid : BitVec 8) (s : State) : exec (.acceptKey sid) s = execAcceptKey sid s := rfl

/-- The GUID ROM is the text of the protocol GUID (10_state.md R25). -/
theorem guid_eq_text :
    guid = "258EAFA5-E914-47DA-95CA-C5AB0DC85B11".toList.map fun ch => BitVec.ofNat 8 ch.toNat := by
  decide

section
variable {s : State} (hfit : s.opA.length ≤ s.cfg.maxOperand)
include hfit

theorem exec_acceptKey_of_limit (hlimit : 2 ^ 61 ≤ s.opA.length + 36) :
    exec (.acceptKey 0#8) s = answers s (errorResult 0x11#8 1) := by
  rw [exec_acceptKey, execAcceptKey, plainCommand_opA_ok hfit, guid_length, sha1InputLimit, if_pos hlimit]
  rfl

theorem exec_acceptKey_ok (hlimit : s.opA.length + 36 < 2 ^ 61) :
    exec (.acceptKey 0#8) s =
      answers s { Result.null with status := 0x00#8, out := base64 (sha1 (s.opA ++ guid)) } := by
  rw [exec_acceptKey, execAcceptKey, plainCommand_opA_ok hfit, guid_length, sha1InputLimit,
    if_neg (Nat.not_le.mpr hlimit)]
  rfl

end

/-- Settles O48: the common checks, the input limit, then the digest of the key and the GUID as text. -/
theorem acceptKeyResult : Obligations.AcceptKeyResult := by
  unfold Obligations.AcceptKeyResult
  refine fun sid s => ⟨plainCommand_of_sid_ne, ?_, ?_, ?_⟩
  · rintro rfl hlong
    exact plainCommand_of_overlong (overlong_cons_of_lt hlong)
  · rintro rfl hfit hlimit
    exact exec_acceptKey_of_limit hfit hlimit
  · rintro rfl hfit hlimit
    rw [← guid_eq_text]
    exact exec_acceptKey_ok hfit hlimit

end Sys2Proof.Machine
end

section
/-! SHA-1: padding, blocks, schedule, compression and digest (45_accept_key.md R222 to R226). -/

namespace Sys2Proof.Machine

theorem sha1Padded_length_mod (m : Bytes) : (sha1Padded m).length % 64 = 0 := padded_length_mod (beBytes_length _ _)

/-- Settles O50: the count of zeros is `padZeros`, and a padded message is whole blocks. -/
theorem sha1PaddingAndBlocks : Obligations.Sha1PaddingAndBlocks := by
  unfold Obligations.Sha1PaddingAndBlocks
  refine fun m _ => ⟨⟨padZeros m.length, ?_, padZeros_least m.length⟩, blocks_flatten (sha1Padded_length_mod m),
    fun _ => blocks_length⟩
  simp [sha1Padded, padded, beBytes]

/-! The message schedule (45_accept_key.md R224). -/

/-- The four bytes of word `j` stand in the block from byte `4j` on, most significant first. -/
theorem be_wordBytes {b : Bytes} {j : Nat} (h : 4 * j + 4 ≤ b.length) :
    be (wordBytes b j) = ((List.range 4).map fun k => (b.getD (4 * j + k) 0#8).toNat * 256 ^ (3 - k)).sum := by
  rw [wordBytes, be_take_eq_sum (by simp; omega)]
  simp

theorem sha1Words_length (b : Bytes) : (sha1Words b).length = 16 := by
  simp [sha1Words]

theorem sha1Words_getD_toNat {b : Bytes} {j : Nat} (hb : b.length = 64) (hj : j < 16) :
    ((sha1Words b).getD j 0#32).toNat =
      ((List.range 4).map fun k => (b.getD (4 * j + k) 0#8).toNat * 256 ^ (3 - k)).sum := by
  have hin : 4 * j + 4 ≤ b.length := by omega
  have hlt : be (wordBytes b j) < 2 ^ 32 := by
    have h := be_lt (wordBytes b j)
    rwa [wordBytes_length hin] at h
  have hget : (sha1Words b).getD j 0#32 = BitVec.ofNat 32 (be (wordBytes b j)) := by simp [sha1Words, hj]
  rw [hget, BitVec.toNat_ofNat, Nat.mod_eq_of_lt hlt, be_wordBytes hin]

/-- The word that follows the words `w`, newest first. -/
def sha1Next (w : List Word32) : Word32 :=
  rotl (w.getD 2 0#32 ^^^ w.getD 7 0#32 ^^^ w.getD 13 0#32 ^^^ w.getD 15 0#32) 1

theorem sha1Extend_succ (n : Nat) (w : List Word32) : sha1Extend (n + 1) w = sha1Extend n (sha1Next w :: w) := rfl

theorem sha1Extend_add (m n : Nat) (w : List Word32) : sha1Extend (m + n) w = sha1Extend n (sha1Extend m w) := by
  induction m generalizing w with
  | zero => rw [Nat.zero_add]; rfl
  | succ m ih => rw [Nat.add_right_comm, sha1Extend_succ, sha1Extend_succ, ih]

theorem sha1Extend_succ_eq_cons (n : Nat) (w : List Word32) :
    sha1Extend (n + 1) w = sha1Next (sha1Extend n w) :: sha1Extend n w := sha1Extend_add n 1 w

theorem sha1Schedule_eq_append (b : Bytes) : ∃ x, sha1Schedule b = sha1Words b ++ x ∧ x.length = 64 := by
  obtain ⟨x, hx, hl⟩ := sha1Extend_eq_append 64 (sha1Words b).reverse
  exact ⟨x.reverse, by simp [sha1Schedule, hx], by simpa using hl⟩

theorem sha1Schedule_length (b : Bytes) : (sha1Schedule b).length = 80 := by
  obtain ⟨x, hx, hl⟩ := sha1Schedule_eq_append b
  rw [hx, List.length_append, sha1Words_length, hl]

theorem sha1Schedule_getD_of_lt {t : Nat} (b : Bytes) (ht : t < 16) :
    (sha1Schedule b).getD t 0#32 = (sha1Words b).getD t 0#32 := by
  obtain ⟨x, hx, -⟩ := sha1Schedule_eq_append b
  rw [hx, List.getD_append _ _ _ _ (by rwa [sha1Words_length])]

/-- An extended schedule, cut at the word made after `m` more: the words made later, it, and the words before it. -/
theorem sha1Extend_cut (m n : Nat) (w : List Word32) :
    ∃ x v, sha1Extend (m + 1 + n) w = x ++ sha1Next v :: v ∧ x.length = n := by
  rw [sha1Extend_add, sha1Extend_succ_eq_cons]
  obtain ⟨x, hx, hl⟩ := sha1Extend_eq_append n (sha1Next (sha1Extend m w) :: sha1Extend m w)
  exact ⟨x, _, hx, hl⟩

/-- The schedule read back from word `t` on: that word follows the words `v` before it, newest first. -/
theorem sha1Schedule_back {t : Nat} (b : Bytes) (hlo : 16 ≤ t) (hhi : t < 80) :
    ∃ v, ∀ k ≤ t, (sha1Schedule b).getD (t - k) 0#32 = (sha1Next v :: v).getD k 0#32 := by
  obtain ⟨x, v, hx, hl⟩ := sha1Extend_cut (t - 16) (79 - t) (sha1Words b).reverse
  rw [show t - 16 + 1 + (79 - t) = 64 by omega] at hx
  refine ⟨v, fun k hk => ?_⟩
  have hlen : (x ++ sha1Next v :: v).length = 80 := by
    rw [← hx, ← List.length_reverse]
    exact sha1Schedule_length b
  have hplace : 80 - 1 - (t - k) - x.length = k := by omega
  rw [sha1Schedule, hx, List.getD_reverse _ (by omega), hlen, List.getD_append_right _ _ _ _ (by omega), hplace]

/-- Settles O51: the block's words come first, and each later word is `sha1Next` of the words before it. -/
theorem sha1MessageSchedule : Obligations.Sha1MessageSchedule := by
  unfold Obligations.Sha1MessageSchedule
  refine fun b hb => ⟨sha1Schedule_length b, fun t ht => ?_, fun t hlo hhi => ?_⟩
  · rw [sha1Schedule_getD_of_lt b ht, sha1Words_getD_toNat hb ht]
  · obtain ⟨w, hw⟩ := sha1Schedule_back b hlo hhi
    rw [hw 3 (by omega), hw 8 (by omega), hw 14 (by omega), hw 16 (by omega)]
    exact hw 0 (Nat.zero_le t)

/-! The function and the constant of a round, by its range (45_accept_key.md R225). -/

section
variable {t : Nat} (b c d : Word32)

theorem sha1F_sha1K_of_le_19 (h : t ≤ 19) :
    sha1F t b c d = (b &&& c) ||| (~~~b &&& d) ∧ sha1K t = 0x5A827999#32 :=
  ⟨if_pos h, if_pos h⟩

theorem sha1F_sha1K_of_le_39 (hlo : 20 ≤ t) (hhi : t ≤ 39) :
    sha1F t b c d = b ^^^ c ^^^ d ∧ sha1K t = 0x6ED9EBA1#32 := by
  have h19 : ¬t ≤ 19 := by omega
  simp [sha1F, sha1K, h19, hhi]

theorem sha1F_sha1K_of_le_59 (hlo : 40 ≤ t) (hhi : t ≤ 59) :
    sha1F t b c d = (b &&& c) ||| (b &&& d) ||| (c &&& d) ∧ sha1K t = 0x8F1BBCDC#32 := by
  have h19 : ¬t ≤ 19 := by omega
  have h39 : ¬t ≤ 39 := by omega
  simp [sha1F, sha1K, h19, h39, hhi]

theorem sha1F_sha1K_of_ge_60 (hlo : 60 ≤ t) :
    sha1F t b c d = b ^^^ c ^^^ d ∧ sha1K t = 0xCA62C1D6#32 := by
  have h19 : ¬t ≤ 19 := by omega
  have h39 : ¬t ≤ 39 := by omega
  have h59 : ¬t ≤ 59 := by omega
  simp [sha1F, sha1K, h19, h39, h59]

end

/-- Settles O52: the states are the rounds run in order from the chaining state. -/
theorem sha1CompressionRecurrence : Obligations.Sha1CompressionRecurrence := by
  unfold Obligations.Sha1CompressionRecurrence
  exact fun st block => ⟨roundsFrom (sha1Round (sha1Schedule block)) st, rfl,
    fun t _ => ⟨_, sha1K t, sha1F_sha1K_of_le_19 _ _ _, sha1F_sha1K_of_le_39 _ _ _, sha1F_sha1K_of_le_59 _ _ _,
      sha1F_sha1K_of_ge_60 _ _ _, rfl⟩,
    by rw [sha1Block, foldl_range_eq_roundsFrom]⟩

/-- The digest of the last chaining state: its five words, most significant byte first (45_accept_key.md R226). -/
theorem sha1_of_foldl {m : Bytes} {st : Sha1State} (h : (blocks (sha1Padded m)).foldl sha1Block sha1Init = st) :
    sha1 m = [st.a, st.b, st.c, st.d, st.e].flatMap fun x => beBytes x.toNat 4 := by
  simp [sha1, h]

/-- Settles O60: the chain takes the blocks of the padded message from the initial state on. -/
theorem sha1DigestOfEveryMessage : Obligations.Sha1DigestOfEveryMessage := by
  unfold Obligations.Sha1DigestOfEveryMessage
  refine fun m _ => ⟨chainFrom sha1Block sha1Init (blocks (sha1Padded m)), rfl, chainFrom_succ _ _ _, ?_⟩
  rintro _ rfl
  simp only [chainFrom_length, ← beBytes_four]
  exact sha1_of_foldl rfl

end Sys2Proof.Machine
end

section
/-! Base64, group by group (45_accept_key.md R227). -/

namespace Sys2Proof.Machine

/-- The alphabet's text, letter by letter, is the model's character of each 6-bit value. -/
theorem alphabet_eq_base64Char : ∀ v < 64,
    ("ABCDEFGHIJKLMNOPQRSTUVWXYZabcdefghijklmnopqrstuvwxyz0123456789+/".toList.map
      fun ch => BitVec.ofNat 8 ch.toNat).getD v 0#8 = base64Char v := by
  decide

theorem groupValue_two (x y : Byte) : groupValue x y 0#8 = x.toNat * 65536 + y.toNat * 256 := by
  simp [groupValue]

theorem groupValue_one (x : Byte) : groupValue x 0#8 0#8 = x.toNat * 65536 := by
  simp [groupValue]

theorem groupValue_lt (x y z : Byte) : groupValue x y z < 2 ^ 24 := by
  unfold groupValue
  omega

theorem base64_length (m : Bytes) : (base64 m).length = 4 * ((m.length + 2) / 3) := by
  fun_induction base64 m with
  | case1 x y z more v ih =>
    simp only [List.length_cons, ih]
    omega
  | case2 | case3 | case4 => simp

/-- Each group of three bytes before byte `3j` gives four characters; the bytes from there give the rest of the text. -/
theorem base64_drop {m : Bytes} {j : Nat} (h : 3 * j ≤ m.length) :
    (base64 m).drop (4 * j) = base64 (m.drop (3 * j)) := by
  induction j generalizing m with
  | zero => rfl
  | succ j ih =>
    match m with
    | x :: y :: z :: more => exact ih (Nat.le_of_add_le_add_right (b := 3) h)
    | [] | [_] | [_, _] =>
      simp only [List.length_cons, List.length_nil] at h
      omega

theorem drop_eq_getD_cons {m : Bytes} {i : Nat} (h : i < m.length) : m.drop i = m.getD i 0#8 :: m.drop (i + 1) := by
  rw [List.drop_eq_getElem_cons h, List.getD_eq_getElem _ _ h]

section
variable {m : Bytes} {letters : Nat → Byte} {j v : Nat} (hletters : ∀ v < 64, letters v = base64Char v)
include hletters

/-- The four 6-bit values of a 24-bit value have letters. -/
theorem letters_group (x y z : Byte) (hv : v = groupValue x y z) :
    letters (v / 2 ^ 18) = base64Char (v / 2 ^ 18) ∧ letters (v / 2 ^ 12 % 64) = base64Char (v / 2 ^ 12 % 64) ∧
      letters (v / 2 ^ 6 % 64) = base64Char (v / 2 ^ 6 % 64) ∧ letters (v % 64) = base64Char (v % 64) := by
  have hlt := groupValue_lt x y z
  exact ⟨hletters _ (by omega), hletters _ (by omega), hletters _ (by omega), hletters _ (by omega)⟩

theorem base64_full_group (hj : 3 * j + 3 ≤ m.length)
    (hv : v = groupValue (m.getD (3 * j) 0#8) (m.getD (3 * j + 1) 0#8) (m.getD (3 * j + 2) 0#8)) :
    ((base64 m).drop (4 * j)).take 4 =
      [letters (v / 2 ^ 18), letters (v / 2 ^ 12 % 64), letters (v / 2 ^ 6 % 64), letters (v % 64)] := by
  obtain ⟨h0, h1, h2, h3⟩ := letters_group hletters _ _ _ hv
  rw [h0, h1, h2, h3, hv, base64_drop (by omega), drop_eq_getD_cons (by omega), drop_eq_getD_cons (by omega),
    drop_eq_getD_cons (by omega)]
  rfl

theorem base64_final_two (hj : 3 * j + 2 = m.length)
    (hv : v = groupValue (m.getD (3 * j) 0#8) (m.getD (3 * j + 1) 0#8) 0#8) :
    (base64 m).drop (4 * j) =
      [letters (v / 2 ^ 18), letters (v / 2 ^ 12 % 64), letters (v / 2 ^ 6 % 64), 0x3D#8] := by
  obtain ⟨h0, h1, h2, -⟩ := letters_group hletters _ _ _ hv
  rw [h0, h1, h2, hv, base64_drop (by omega), drop_eq_getD_cons (by omega), drop_eq_getD_cons (by omega),
    List.drop_eq_nil_of_le (by omega)]
  rfl

theorem base64_final_one (hj : 3 * j + 1 = m.length) (hv : v = groupValue (m.getD (3 * j) 0#8) 0#8 0#8) :
    (base64 m).drop (4 * j) = [letters (v / 2 ^ 18), letters (v / 2 ^ 12 % 64), 0x3D#8, 0x3D#8] := by
  obtain ⟨h0, h1, -, -⟩ := letters_group hletters _ _ _ hv
  rw [h0, h1, hv, base64_drop (by omega), drop_eq_getD_cons (by omega), List.drop_eq_nil_of_le (by omega)]
  rfl

end

/-- Settles O54: the groups before a group are dropped whole, and the group's bytes give its characters. -/
theorem base64GroupsAndPadding : Obligations.Base64GroupsAndPadding := by
  unfold Obligations.Base64GroupsAndPadding
  intro m letters h
  have hletters : ∀ v < 64, letters v = base64Char v := h ▸ alphabet_eq_base64Char
  exact ⟨base64_length m, fun _ _ => base64_full_group hletters,
    fun _ _ hj hv => base64_final_two hletters hj (hv.trans (groupValue_two _ _).symm),
    fun _ _ hj hv => base64_final_one hletters hj (hv.trans (groupValue_one _).symm)⟩

end Sys2Proof.Machine
end

section
/-! The three kinds of end a command has, and what each one writes (60_exceptions.md R250, R258). -/

namespace Sys2Proof.Machine

/-- The codes R250 calls a success. -/
def successCodes : List (BitVec 8) := [0x00#8, 0x01#8]

/-- The codes of the command errors and of the handshake failure, whose raise changes no context (60_exceptions.md R258). -/
def commandErrorCodes : List (BitVec 8) := [0x10#8, 0x11#8, 0x12#8, 0x20#8]

/-- The codes that are fatal to the session (60_exceptions.md R257). -/
def sessionFaultCodes : List (BitVec 8) := [0x30#8, 0x31#8]

theorem not_mem_commandErrorCodes_of_success : ∀ k ∈ successCodes, k ∉ commandErrorCodes := by decide

theorem not_mem_sessionFaultCodes_of_success : ∀ k ∈ successCodes, k ∉ sessionFaultCodes := by decide

theorem not_mem_sessionFaultCodes_of_commandError : ∀ k ∈ commandErrorCodes, k ∉ sessionFaultCodes := by decide

/-- How a command that names the context `sid` ends on the presented state `s`: it completes, raises a command error, or
faults the session of that context (60_exceptions.md R258, R260). -/
inductive Ends (sid : BitVec 8) (s : State) (o : Host.Outcome State Fault Refusal) : Prop where
  | completes {r : Result} {s' : State} (h : o = complete r s') (hr : r.status ∈ successCodes)
  | raises {st : Status} {info : Nat} (h : o = raise st info s) (hst : statusCode st ∈ commandErrorCodes)
  | faults {st : Status} {info : Nat} {msgs : List Bytes} {c : Ctx} (hc : ctxAt s sid = some c)
      (h : o = sessionFault st info msgs sid c s) (hst : statusCode st ∈ sessionFaultCodes)

theorem ends_of_badOperand {sid : BitVec 8} {s : State} {o : Host.Outcome State Fault Refusal} {k : Nat}
    (h : o = raise .badOperand k s) : Ends sid s o := .raises h (by decide)

theorem ends_of_ok {sid : BitVec 8} {s s' : State} {o : Host.Outcome State Fault Refusal} {r : Result}
    (h : o = complete r s') (hr : r.status = 0x00#8) : Ends sid s o := .completes h (by simp [hr, successCodes])

/-- Only SESSION_FEED faults a session; every other command completes or raises a command error. -/
theorem exec_ends (i : Instr) (s : State) : Ends i.sid s (exec i s) := by
  cases i with
  | hdrDecode sid =>
    rcases execHdrDecode_cases sid s with ⟨_, _, h⟩ | ⟨_, _, _, h⟩ | ⟨_, _, _, h⟩
    · exact ends_of_badOperand h
    · exact .completes h (by simp [successCodes, statusCode])
    · exact ends_of_ok h rfl
  | frameDecode sid =>
    rcases execFrameDecode_cases sid s with ⟨_, _, h⟩ | ⟨_, _, _, h⟩ | ⟨_, _, _, _, h⟩ | ⟨_, _, _, _, h⟩
    · exact ends_of_badOperand h
    · exact .completes h (by simp [successCodes, statusCode])
    · exact .completes h (by simp [successCodes, statusCode])
    · exact ends_of_ok h rfl
  | unmask sid =>
    rcases execUnmask_cases sid s with ⟨_, _, h⟩ | ⟨_, _, h⟩
    · exact ends_of_badOperand h
    · exact ends_of_ok h rfl
  | sessionOpen sid =>
    rcases execSessionOpen_cases sid s with ⟨_, _, h⟩ | ⟨_, _, _, h⟩ | ⟨_, _, _, _, _, h⟩
    · exact ends_of_badOperand h
    · exact .raises h (by decide)
    · exact ends_of_ok h rfl
  | sessionFeed sid =>
    rcases execSessionFeed_cases sid s with ⟨_, _, h⟩ | ⟨_, _, _, h⟩ | ⟨_, _, _, _, _, _, _, h⟩ |
      ⟨_, _, _, _, hc, _, hfeed, h⟩
    · exact ends_of_badOperand h
    · exact .raises h (by decide)
    · exact ends_of_ok h rfl
    · rcases feed_faulted_status hfeed with rfl | rfl <;> exact .faults hc h (by decide)
  | sessionClose sid =>
    rcases execSessionClose_cases sid s with h | ⟨_, _, h⟩
    · exact ends_of_badOperand h
    · exact ends_of_ok h rfl
  | sessionQuery sid =>
    rcases execSessionQuery_cases sid s with h | ⟨_, _, h⟩
    · exact ends_of_badOperand h
    · exact ends_of_ok h rfl
  | encodeText sid =>
    rcases execEncodeText_cases sid s with ⟨_, _, h⟩ | ⟨_, h⟩
    · exact ends_of_badOperand h
    · exact ends_of_ok h rfl
  | keyReduce sid =>
    rcases execKeyReduce_cases sid s with ⟨_, _, h⟩ | ⟨_, _, _, _, h⟩ | ⟨_, _, _, h⟩
    · exact ends_of_badOperand h
    · exact .raises h (by decide)
    · exact ends_of_ok h rfl
  | legacyToken sid =>
    rcases execLegacyToken_cases sid s with ⟨_, _, h⟩ | ⟨_, _, _, _, _, h⟩ | ⟨_, _, _, _, _, h⟩
    · exact ends_of_badOperand h
    · exact .raises h (by decide)
    · exact ends_of_ok h rfl
  | acceptKey sid =>
    rcases execAcceptKey_cases sid s with ⟨_, _, h⟩ | ⟨_, h⟩
    · exact ends_of_badOperand h
    · exact ends_of_ok h rfl

/-- A step that runs a command ends in one of the three ways, a reserved `OP` by raising (60_exceptions.md R253). -/
theorem step_issue_ends {s : State} {c : Command} {later : List HostAction} (hp : s.pending = .issue c :: later) :
    Ends (sidField c.cmd) (present s c later) (step s) := by
  cases hd : decode c.cmd with
  | ok i =>
    rw [step_issue_ok hp hd, ← decode_sid hd]
    exact exec_ends i _
  | error e =>
    obtain ⟨op⟩ := e
    exact .raises (step_issue_reserved hp hd) (by decide)

/-- Settles O35: each of the three ends writes its own record, and the status tells them apart. -/
theorem raiseWritesOnlyStatusAndInfo : Obligations.RaiseWritesOnlyStatusAndInfo := by
  unfold Obligations.RaiseWritesOnlyStatusAndInfo
  rintro s t _ c later _ hp rfl rfl hs
  rw [← sidField_toNat]
  cases step_issue_ends hp with
  | completes h hr =>
    cases hs.symm.trans h
    exact ⟨fun he => absurd he (not_mem_commandErrorCodes_of_success _ hr),
      fun hf => absurd hf (not_mem_sessionFaultCodes_of_success _ hr)⟩
  | raises h hst =>
    cases hs.symm.trans h
    exact ⟨fun _ => rfl, fun hf => absurd hf (not_mem_sessionFaultCodes_of_commandError _ hst)⟩
  | faults hc h hst =>
    cases hs.symm.trans h
    exact ⟨fun he => absurd hst (not_mem_sessionFaultCodes_of_commandError _ he), fun _ => ⟨_, hc, rfl⟩⟩

end Sys2Proof.Machine
end

section
/-! The command word: encoding and decoding (30_encoding.md R70, R71). -/

namespace Sys2Proof

/-- Every command is the decoding of its word. -/
theorem decode_encode (i : Instr) : decode (encode i) = .ok i := by
  cases i <;> simp [decode, encode, opcode, Instr.sid]

/-- A word that decodes is the encoding of its command: `OP` and `SID` are the whole word. -/
theorem encode_of_decode {w : BitVec 16} {i : Instr} (h : decode w = .ok i) : encode i = w := by
  rw [encode, decode_sid h, decode_opcode h, sidField_append_opField]

/-- Settles O1: the two directions. -/
theorem decodeEncodeAgree : Obligations.DecodeEncodeAgree := by
  unfold Obligations.DecodeEncodeAgree
  exact fun i w => ⟨encode_of_decode, fun h => h ▸ decode_encode i⟩

/-- Settles O2: each word written out is the encoding of its command. -/
theorem wordsOfTheOpcodeTableDecode : Obligations.WordsOfTheOpcodeTableDecode := by
  unfold Obligations.WordsOfTheOpcodeTableDecode
  refine ⟨?_, ?_, ?_, ?_, ?_, ?_, ?_, ?_, ?_, ?_, ?_⟩ <;> exact (decodeEncodeAgree _ _).mpr rfl

end Sys2Proof
end

section
/-! What one step does by the host's next action, and what every step keeps (10_state.md R20, R39, R40). -/

namespace Sys2Proof.Machine

/-- Settles O4: presenting a command writes `CMD` and the operands and takes the action off the list. -/
theorem stepRunsTheIssuedCommand : Obligations.StepRunsTheIssuedCommand := by
  unfold Obligations.StepRunsTheIssuedCommand
  exact fun _ _ _ _ hp hd => step_issue_ok hp hd

/-- Settles O5: the idle step. -/
theorem idleStepHoldsAllState : Obligations.IdleStepHoldsAllState := by
  unfold Obligations.IdleStepHoldsAllState
  exact fun _ => step_idle

/-- Settles O6: a reset fills the context file with null contexts and clears the mark that `RESULT` has a value. -/
theorem hostResetClearsEveryContext : Obligations.HostResetClearsEveryContext := by
  unfold Obligations.HostResetClearsEveryContext
  refine fun s later hp => ⟨_, step_reset hp, by simp, fun c hc => ?_, rfl, rfl, rfl⟩
  rw [resetBlock_ctxs] at hc
  obtain rfl : c = Ctx.idle := List.eq_of_mem_replicate hc
  exact ⟨rfl, rfl, rfl, rfl, rfl⟩

/-- Settles O7: the fields of the reset state, read off its definition. -/
theorem resetStateValues : Obligations.ResetStateValues := by
  unfold Obligations.ResetStateValues
  exact ⟨rfl, rfl, rfl, rfl⟩

/-- Every command answers with a next state. -/
theorem exec_total (i : Instr) (s : State) : ∃ t, exec i s = .next t := by
  rcases exec_shape i s with ⟨r, h⟩ | ⟨c, d, r, -, -, h⟩
  · exact ⟨_, h⟩
  · exact ⟨_, h⟩

/-- A step that runs a command ends in a state with a completed result record on the presented state, with at most one
context written. -/
theorem step_issue_finish {s t : State} {c : Command} {later : List HostAction} (hp : s.pending = .issue c :: later)
    (hs : step s = .next t) :
    ∃ r, t = finish r (present s c later) ∨ ∃ sid d, t = finish r (setCtx sid d (present s c later)) := by
  rcases step_issue_elim hp hs with ⟨i, -, hi⟩ | ⟨op, -, rfl⟩
  · rcases exec_elim hi with ⟨r, rfl⟩ | ⟨_, d, r, -, -, rfl⟩
    · exact ⟨r, .inl rfl⟩
    · exact ⟨r, .inr ⟨_, d, rfl⟩⟩
  · exact ⟨_, .inl rfl⟩

/-- Settles O9: every host action has an answer, a command by the shape of its answer. -/
theorem everyStepCompletes : Obligations.EveryStepCompletes := by
  unfold Obligations.EveryStepCompletes
  intro s
  match hp : s.pending with
  | [] => exact ⟨s, step_idle hp⟩
  | .reset :: later => exact ⟨_, step_reset hp⟩
  | .issue c :: later =>
    cases hd : decode c.cmd with
    | ok i =>
      rw [step_issue_ok hp hd]
      exact exec_total i _
    | error e =>
      obtain ⟨op⟩ := e
      exact ⟨_, step_issue_reserved hp hd⟩

/-- Settles O8: every answer of a command is a completed one. -/
theorem resultHasAValueOnceACommandCompletes : Obligations.ResultHasAValueOnceACommandCompletes := by
  unfold Obligations.ResultHasAValueOnceACommandCompletes
  intro s c later hp
  obtain ⟨t, ht⟩ := everyStepCompletes s
  refine ⟨t, ht, ?_⟩
  obtain ⟨r, rfl | ⟨_, _, rfl⟩⟩ := step_issue_finish hp ht <;> rfl

/-- Settles O10: by the host's next action. -/
theorem stepKeepsParametersAndOperands : Obligations.StepKeepsParametersAndOperands := by
  unfold Obligations.StepKeepsParametersAndOperands
  intro s t hs
  match hp : s.pending with
  | [] =>
    cases (step_idle hp).symm.trans hs
    exact ⟨rfl, rfl, by simp⟩
  | .reset :: later =>
    cases (step_reset hp).symm.trans hs
    exact ⟨rfl, by simp, by simp⟩
  | .issue c :: later =>
    obtain ⟨r, rfl | ⟨_, _, rfl⟩⟩ := step_issue_finish hp hs <;> simp

end Sys2Proof.Machine
end

section
/-! A frame as a sender builds it, read back by the decoder (30_encoding.md R75 to R82; 40_frame_decode.md R103 to R109). -/

namespace Sys2Proof.Machine

/-! The bit fields of a byte put together from its fields. -/

theorem byte0_toNat (fin : BitVec 1) (rsv : BitVec 3) (opc : BitVec 4) :
    (fin ++ rsv ++ opc : Byte).toNat = 128 * fin.toNat + 16 * rsv.toNat + opc.toNat := by
  rw [BitVec.toNat_append, BitVec.toNat_append, ← Nat.shiftLeft_add_eq_or_of_lt rsv.isLt,
    ← Nat.shiftLeft_add_eq_or_of_lt opc.isLt, Nat.shiftLeft_eq, Nat.shiftLeft_eq]
  omega

theorem byte1_toNat (m : BitVec 1) (len : BitVec 7) : (m ++ len : Byte).toNat = 128 * m.toNat + len.toNat := by
  rw [BitVec.toNat_append, ← Nat.shiftLeft_add_eq_or_of_lt len.isLt, Nat.shiftLeft_eq]
  omega

@[simp] theorem finOf_byte0 (fin : BitVec 1) (rsv : BitVec 3) (opc : BitVec 4) : finOf (fin ++ rsv ++ opc) = fin := by
  apply BitVec.eq_of_toNat_eq
  rw [finOf_toNat, byte0_toNat]
  omega

@[simp] theorem rsvOf_byte0 (fin : BitVec 1) (rsv : BitVec 3) (opc : BitVec 4) : rsvOf (fin ++ rsv ++ opc) = rsv := by
  apply BitVec.eq_of_toNat_eq
  rw [rsvOf_toNat, byte0_toNat]
  omega

@[simp] theorem opcOf_byte0 (fin : BitVec 1) (rsv : BitVec 3) (opc : BitVec 4) : opcOf (fin ++ rsv ++ opc) = opc := by
  apply BitVec.eq_of_toNat_eq
  rw [opcOf_toNat, byte0_toNat]
  omega

@[simp] theorem maskedOf_byte1 (m : BitVec 1) (len : BitVec 7) : maskedOf (m ++ len) = m := by
  apply BitVec.eq_of_toNat_eq
  rw [maskedOf_toNat, byte1_toNat]
  omega

@[simp] theorem baseLenOf_byte1 (m : BitVec 1) (len : BitVec 7) : baseLenOf (m ++ len) = len := by
  apply BitVec.eq_of_toNat_eq
  rw [baseLenOf_toNat, byte1_toNat]
  omega

/-! The parts of a frame on the wire. -/

namespace WireFrame

/-- `L`, the low bits of byte 1: the length itself, or the mark of an extended form (30_encoding.md R77). -/
def baseLen (f : WireFrame) : BitVec 7 :=
  match f.form with
  | .base => BitVec.ofNat 7 f.payload.length
  | .ext16 => 126#7
  | .ext64 => 127#7

/-- The key on the wire (30_encoding.md R79). -/
def keyBytes (f : WireFrame) : Bytes :=
  match f.key with
  | some k => k.toList
  | none => []

/-- The payload on the wire (30_encoding.md R81). -/
def wirePayload (f : WireFrame) : Bytes :=
  match f.key with
  | some k => Machine.unmask f.payload k.toList
  | none => f.payload

/-- The header a decoder reads from the frame. -/
def header (f : WireFrame) : FrameHeader where
  fin := f.fin
  rsv := f.rsv
  opc := f.opc
  masked := f.maskBit
  pl := BitVec.ofNat 64 f.payload.length
  hl := 2 + f.form.extBytes + 4 * f.maskBit.toNat
  key := f.keyBytes

theorem keyBytes_length (f : WireFrame) : f.keyBytes.length = 4 * f.maskBit.toNat := by
  unfold keyBytes
  split
  · rename_i k hk
    simp [maskBit_some hk]
  · rename_i hk
    simp [maskBit_none hk]

@[simp] theorem wirePayload_length (f : WireFrame) : f.wirePayload.length = f.payload.length := by
  unfold wirePayload
  split <;> simp

theorem bytes_eq (f : WireFrame) :
    f.bytes = (f.fin ++ f.rsv ++ f.opc) :: (f.maskBit ++ f.baseLen) ::
      (beBytes f.payload.length f.form.extBytes ++ (f.keyBytes ++ f.wirePayload)) := by
  unfold bytes lengthBytes baseLen keyBytes wirePayload LenForm.extBytes
  cases f.form <;> cases f.key <;> simp [beBytes]

variable {f : WireFrame} (hfits : f.fits = true)
include hfits

theorem payload_length_lt : f.payload.length < 2 ^ 64 := by
  unfold fits at hfits
  split at hfits <;> simp only [decide_eq_true_eq] at hfits <;> omega

theorem extOf_baseLen : extOf f.baseLen = f.form.extBytes := by
  unfold fits at hfits
  unfold baseLen LenForm.extBytes
  cases hform : f.form with
  | base =>
    simp only [hform, decide_eq_true_eq] at hfits
    rw [extOf, BitVec.toNat_ofNat, if_pos (by omega)]
  | ext16 => rfl
  | ext64 => rfl

/-- The length the decoder reads, from the base length or from the extended one (30_encoding.md R77, R78). -/
theorem pl_eq (more : Bytes) :
    (if f.form.extBytes = 0 then f.baseLen.setWidth 64
      else BitVec.ofNat 64 (be ((beBytes f.payload.length f.form.extBytes ++ more).take f.form.extBytes))) =
    BitVec.ofNat 64 f.payload.length := by
  rw [List.take_left' (beBytes_length _ _)]
  unfold fits at hfits
  unfold baseLen LenForm.extBytes
  cases hform : f.form with
  | base =>
    simp only [hform, decide_eq_true_eq] at hfits
    apply BitVec.eq_of_toNat_eq
    simp only [if_true, BitVec.toNat_setWidth, BitVec.toNat_ofNat]
    omega
  | ext16 =>
    simp only [hform, decide_eq_true_eq] at hfits
    rw [if_neg (by decide), be_beBytes_of_lt hfits]
  | ext64 =>
    simp only [hform, decide_eq_true_eq] at hfits
    rw [if_neg (by decide), be_beBytes_of_lt hfits]

/-- The fields of bytes 0 and 1 and of what follows them are the header's. -/
theorem headerOf_bytes (more : Bytes) :
    headerOf (f.fin ++ f.rsv ++ f.opc) (f.maskBit ++ f.baseLen)
      (beBytes f.payload.length f.form.extBytes ++ (f.keyBytes ++ more)) = f.header := by
  simp only [headerOf, header, finOf_byte0, rsvOf_byte0, opcOf_byte0, maskedOf_byte1, baseLenOf_byte1,
    extOf_baseLen hfits, pl_eq hfits, FrameHeader.mk.injEq, true_and]
  refine ⟨?_, ?_⟩
  · rw [headerLenOf, baseLenOf_byte1, maskedOf_byte1, extOf_baseLen hfits]
  · rw [List.drop_left' (beBytes_length _ _), List.take_left' (keyBytes_length f)]

/-- The decoder reads a frame's header back, whatever follows the frame. -/
theorem decodeHeader_bytes (rest : Bytes) : decodeHeader (f.bytes ++ rest) = .ok (.header f.header) := by
  have hhl : headerLenOf (f.maskBit ++ f.baseLen) = 2 + f.form.extBytes + f.keyBytes.length := by
    rw [headerLenOf, baseLenOf_byte1, maskedOf_byte1, extOf_baseLen hfits, keyBytes_length]
  rw [bytes_eq, List.cons_append, List.cons_append, List.append_assoc, List.append_assoc, decodeHeader_cons, hhl,
    headerOf_bytes hfits, if_neg]
  simp only [List.length_append, beBytes_length]
  omega

/-- The frame's length is the one its header tells (40_frame_decode.md R108). -/
theorem frameLen_header : frameLen f.header = f.bytes.length := by
  rw [frameLen, bytes_length, header, BitVec.toNat_ofNat, Nat.mod_eq_of_lt (payload_length_lt hfits)]

/-- The payload comes back plain: unmasking undoes the sender's masking (40_frame_decode.md R109, 41_unmask.md R132). -/
theorem payloadOf_bytes (rest : Bytes) : payloadOf (f.bytes ++ rest) f.header = f.payload := by
  have hlen : f.header.pl.toNat = f.payload.length := by
    rw [header, BitVec.toNat_ofNat, Nat.mod_eq_of_lt (payload_length_lt hfits)]
  have hdrop : f.bytes.drop f.header.hl = f.wirePayload := by
    rw [bytes_eq, header, ← keyBytes_length, Nat.add_assoc, Nat.add_comm 2, List.drop_succ_cons, List.drop_succ_cons,
      ← List.append_assoc, List.drop_left' (by simp)]
  rw [payloadOf_append rest (frameLen_header hfits).le, payloadOf, hdrop, hlen, ← wirePayload_length, List.take_length,
    header]
  unfold wirePayload keyBytes
  cases hk : f.key with
  | some k => rw [if_pos (maskBit_some hk), unmask_unmask]
  | none => rw [if_neg (by simp [maskBit_none hk])]

/-- A whole frame that the session accepts (42_session.md R145, R152). -/
theorem completeFrame_bytes {v : Variant} (hkey : v = .modern → f.key.isSome = true) (rest : Bytes) :
    CompleteFrame v (f.bytes ++ rest) f.header := by
  refine ⟨decodeHeader_bytes hfits rest, ?_, ?_⟩
  · rintro ⟨hm, rfl⟩
    simp [header, maskBit, hkey rfl] at hm
  · rw [frameLen_header hfits]
    simp

end WireFrame

end Sys2Proof.Machine
end

section
/-! FRAME_DECODE undoes framing; ENCODE_TEXT is a framing (40_frame_decode.md R108; 43_encode.md R180, R186). -/

namespace Sys2Proof.Machine

/-- The header length fits its field (10_state.md R27). -/
theorem WireFrame.header_hl_lt (f : WireFrame) : f.header.hl < 2 ^ 4 := by
  have hext : f.form.extBytes ≤ 8 := by cases f.form <;> decide
  have hhl : f.header.hl = 2 + f.form.extBytes + 4 * f.maskBit.toNat := rfl
  omega

/-- Settles O16: the header and the payload are the frame's, and dropping the frame leaves what follows it. -/
theorem frameDecodeInvertsFraming : Obligations.FrameDecodeInvertsFraming := by
  unfold Obligations.FrameDecodeInvertsFraming
  intro s f rest hfits hA hfit
  have hd : decodeHeader s.opA = .ok (.header f.header) := hA ▸ f.decodeHeader_bytes hfits rest
  have hwhole : frameLen f.header ≤ s.opA.length := by
    rw [hA, f.frameLen_header hfits, List.length_append]
    exact Nat.le_add_right _ _
  refine ⟨_, exec_frameDecode_whole hfit hd hwhole, rfl, rfl, rfl, rfl, rfl, ?_, ?_, rfl, ?_, ?_⟩
  · exact (BitVec.toNat_ofNat _ _).trans (Nat.mod_eq_of_lt (f.payload_length_lt hfits))
  · exact (BitVec.toNat_ofNat _ _).trans (Nat.mod_eq_of_lt f.header_hl_lt)
  · simp only [hA, f.payloadOf_bytes hfits]
  · simp only [hA, f.frameLen_header hfits, List.drop_left]

/-- The shortest length form (43_encode.md R182). -/
def textForm (n : Nat) : LenForm := if n ≤ 125 then .base else if n ≤ 65535 then .ext16 else .ext64

/-- The frame ENCODE_TEXT builds for a message: FIN, opcode text, unmasked (43_encode.md R181 to R183). -/
def textFrame (m : Bytes) : WireFrame where
  fin := 1#1
  rsv := 0#3
  opc := 1#4
  form := textForm m.length
  key := none
  payload := m

theorem textFrame_fits {m : Bytes} (h : m.length < 2 ^ 64) : (textFrame m).fits = true := by
  unfold WireFrame.fits textFrame textForm
  by_cases h7 : m.length ≤ 125
  · simp [h7]
  · by_cases h16 : m.length ≤ 65535
    · simpa [h7, h16] using Nat.lt_succ_of_le h16
    · simpa [h7, h16] using h

theorem textFrame_bytes (m : Bytes) : (textFrame m).bytes = textHeader m.length ++ m := by
  unfold WireFrame.bytes WireFrame.lengthBytes WireFrame.maskBit textFrame textForm textHeader
  by_cases h7 : m.length ≤ 125
  · have hbyte1 : (0#1 ++ BitVec.ofNat 7 m.length : Byte) = BitVec.ofNat 8 m.length := by
      apply BitVec.eq_of_toNat_eq
      rw [byte1_toNat, BitVec.toNat_ofNat, BitVec.toNat_ofNat, BitVec.toNat_ofNat]
      omega
    simpa [h7, textByte0] using hbyte1
  · by_cases h16 : m.length ≤ 65535 <;> simp [h7, h16, textByte0]

/-- FRAME_DECODE reads the encoder's output back (O16 for the frame the encoder builds). -/
theorem exec_frameDecode_textHeader {s : State} {m : Bytes} (hm : m.length < 2 ^ 64)
    (hA : s.opA = textHeader m.length ++ m) (hfit : s.opA.length ≤ s.cfg.maxOperand) :
    ∃ u, exec (.frameDecode 0#8) s = .next u ∧ u.result.status = 0x00#8 ∧ u.result.hFin = 1#1 ∧
      u.result.hRsv = 0#3 ∧ u.result.hOpc = 1#4 ∧ u.result.hMask = 0#1 ∧ u.result.hPlen.toNat = m.length ∧
      u.result.out = m ∧ u.result.rem = [] := by
  obtain ⟨u, hu, hst, hfin, hrsv, hopc, hmask, hpl, -, -, hout, hrem⟩ :=
    frameDecodeInvertsFraming s (textFrame m) [] (textFrame_fits hm) (by rw [hA, textFrame_bytes, List.append_nil]) hfit
  exact ⟨u, hu, hst, hfin, hrsv, hopc, hmask, hpl, hout, hrem⟩

/-- Settles O41: the encoder's output is a frame, which FRAME_DECODE reads back when it is a legal operand. -/
theorem encodeThenDecodeRoundTrip : Obligations.EncodeThenDecodeRoundTrip := by
  unfold Obligations.EncodeThenDecodeRoundTrip
  intro s hlegal hfit
  have hlt : s.opA.length < 2 ^ 64 := by
    simp only [Config.legal, Bool.and_eq_true, decide_eq_true_eq] at hlegal
    omega
  exact ⟨_, exec_encodeText_ok hfit, rfl, fun hframe => exec_frameDecode_textHeader hlt rfl hframe,
    fun hlong => plainCommand_of_overlong (overlong_cons_of_lt hlong)⟩

end Sys2Proof.Machine
end

section
/-! A feed of whole frames and a tail (42_session.md R146, R147, R154, R155). -/

namespace Sys2Proof.Machine

theorem feedFrom_tail {cfg : Config} {v : Variant} {off : Nat} {tail acc : Bytes} {msgs : List Bytes}
    (hpart : partialFrame v tail = true) (hcap : capAdmits cfg.pendCap tail.length = true) :
    feedFrom cfg v off tail acc msgs = .ok (.done tail acc msgs) := by
  by_cases hne : tail = []
  · rw [hne, feedFrom_nil]
  · rw [feedFrom_partial hne hpart, feedStore, if_pos hcap]

/-- A frame ends one message or lengthens the one in `ACC`, then the rest is assembled. -/
theorem assemble_cons (acc : Bytes) (msgs : List Bytes) (f : WireFrame) (more : List WireFrame) :
    ((assemble acc (f :: more)).2, msgs ++ (assemble acc (f :: more)).1) =
      ((assemble (afterFrame f.header f.payload acc msgs).1 more).2,
        (afterFrame f.header f.payload acc msgs).2 ++
          (assemble (afterFrame f.header f.payload acc msgs).1 more).1) := by
  have hfin : f.header.fin = f.fin := rfl
  rw [assemble, afterFrame, hfin]
  split <;> simp

/-- The loop consumes the frames one by one and keeps the tail. -/
theorem feedFrom_frames {cfg : Config} {v : Variant} {tail : Bytes} (hacc : cfg.accCap = .unbounded)
    (hpart : partialFrame v tail = true) (hcap : capAdmits cfg.pendCap tail.length = true) (frames : List WireFrame)
    (hframes : ∀ f ∈ frames, f.fits = true ∧ (v = .modern → f.key.isSome = true)) (off : Nat) (acc : Bytes)
    (msgs : List Bytes) :
    feedFrom cfg v off (frames.flatMap WireFrame.bytes ++ tail) acc msgs =
      .ok (.done tail (assemble acc frames).2 (msgs ++ (assemble acc frames).1)) := by
  induction frames generalizing off acc msgs with
  | nil => simpa [assemble] using feedFrom_tail hpart hcap
  | cons f more ih =>
    obtain ⟨⟨hfits, hkey⟩, hmore⟩ := List.forall_mem_cons.mp hframes
    have hf := f.completeFrame_bytes hfits hkey (more.flatMap WireFrame.bytes ++ tail)
    obtain ⟨h2, h1⟩ := Prod.mk.inj (assemble_cons acc msgs f more)
    rw [List.flatMap_cons, List.append_assoc, feedFrom_frame hf, if_pos (by rw [hacc]; rfl),
      f.payloadOf_bytes hfits, f.frameLen_header hfits, List.drop_left, ih hmore, h1, h2]

/-- Settles O22: the loop's end on the frames and the tail. -/
theorem feedReassemblesWholeFrames : Obligations.FeedReassemblesWholeFrames := by
  unfold Obligations.FeedReassemblesWholeFrames
  intro sid s c frames tail hc ho hfit hacc hcap hframes hpart hstream
  have hend := feedFrom_frames hacc hpart hcap frames hframes 0 c.acc []
  rw [← hstream] at hend
  exact exec_sessionFeed_opened hc hfit ho hend

end Sys2Proof.Machine
end

section
/-! More bytes after a buffer: HDR_DECODE and FRAME_DECODE (40_frame_decode.md R112, R114). -/

namespace Sys2Proof.Machine

/-- Settles O15: the header decodes from the same bytes. -/
theorem hdrDecodeIgnoresTrailingBytes : Obligations.HdrDecodeIgnoresTrailingBytes := by
  unfold Obligations.HdrDecodeIgnoresTrailingBytes
  intro s t more hfit ht hst
  have hA : s.opA.length ≤ s.cfg.maxOperand := by omega
  obtain ⟨d, hd⟩ := decodeHeader_total s.opA
  cases d with
  | needMore k =>
    cases (exec_hdrDecode_needMore hA hd).symm.trans ht
    exact absurd (show (0x01#8 : BitVec 8) = 0x00#8 from hst) (by decide)
  | header h =>
    cases (exec_hdrDecode_header hA hd).symm.trans ht
    exact ⟨_, exec_hdrDecode_header (by simpa using hfit) (decodeHeader_append more hd), rfl⟩

/-! The boundaries of FRAME_DECODE. -/

theorem decodeStage_needMore (b : Bytes) (k : Nat) :
    decodeStage b (errorResult 0x01#8 k) = if b.length < 2 then 0 else 1 := rfl

/-- The answer on a buffer whose header is complete: the frame is whole, or the end of its payload is the boundary. -/
theorem exec_frameDecode_past_header {s : State} {h : FrameHeader} (hfit : s.opA.length ≤ s.cfg.maxOperand)
    (hd : decodeHeader s.opA = .ok (.header h)) :
    ∃ u, exec (.frameDecode 0#8) s = .next u ∧
      (u.result.status = 0x00#8 ∨ (u.result.status = 0x01#8 ∧ decodeStage s.opA u.result = 2)) := by
  obtain ⟨hmem, hlen, -⟩ := decodeHeader_facts hd
  obtain ⟨htwo, -⟩ := decodeHeader_hl_pos hd
  by_cases hwhole : frameLen h ≤ s.opA.length
  · exact ⟨_, exec_frameDecode_whole hfit hd hwhole, .inl rfl⟩
  · refine ⟨_, exec_frameDecode_short hfit hd (Nat.not_le.mp hwhole), .inr ⟨rfl, ?_⟩⟩
    have hne : BitVec.ofNat 4 h.hl ≠ 0#4 := by
      simp only [List.mem_cons, List.not_mem_nil, or_false] at hmem
      rcases hmem with h | h | h | h | h | h <;> rw [h] <;> decide
    rw [decodeStage, if_neg (by omega)]
    exact if_neg hne

/-- The answer on a buffer that holds byte 1 is not at the boundary before it. -/
theorem exec_frameDecode_past_byte1 {s : State} (hfit : s.opA.length ≤ s.cfg.maxOperand) (htwo : 2 ≤ s.opA.length) :
    ∃ u, exec (.frameDecode 0#8) s = .next u ∧
      (u.result.status = 0x00#8 ∨ (u.result.status = 0x01#8 ∧ 1 ≤ decodeStage s.opA u.result)) := by
  obtain ⟨d, hd⟩ := decodeHeader_total s.opA
  cases d with
  | needMore k =>
    refine ⟨_, exec_frameDecode_needMore hfit hd, .inr ⟨rfl, ?_⟩⟩
    exact ((decodeStage_needMore s.opA k).trans (if_neg (Nat.not_lt.mpr htwo))).ge
  | header h =>
    obtain ⟨u, hu, hstage⟩ := exec_frameDecode_past_header hfit hd
    exact ⟨u, hu, hstage.imp_right (And.imp_right (by omega))⟩

/-- The count of a header that lacks bytes reaches byte 1 from a shorter buffer, and the end of the header from one that
holds byte 1 (40_frame_decode.md R103, R104). -/
theorem decodeHeader_append_count {b more : Bytes} {k : Nat} (hd : decodeHeader b = .ok (.needMore k))
    (hk : more.length = k) :
    (b.length < 2 ∧ 2 ≤ (b ++ more).length) ∨
      (2 ≤ b.length ∧ ∃ h, decodeHeader (b ++ more) = .ok (.header h)) := by
  match b with
  | [] | [_] =>
    cases (decodeHeader_lt_two (by simp)).symm.trans hd
    simp [hk]
  | b0 :: b1 :: tail =>
    refine .inr ⟨by simp, ?_⟩
    rw [decodeHeader_cons] at hd
    split at hd <;> cases hd
    refine ⟨headerOf b0 b1 (tail ++ more), ?_⟩
    rw [List.cons_append, List.cons_append, decodeHeader_cons, if_neg]
    simp only [List.length_append]
    omega

/-- Settles O14: by the boundary the count is for: byte 1, the end of the header, the end of the payload. -/
theorem needMoreCountReachesTheNextBoundary : Obligations.NeedMoreCountReachesTheNextBoundary := by
  unfold Obligations.NeedMoreCountReachesTheNextBoundary
  intro s t hA ht hst
  obtain ⟨d, hd⟩ := decodeHeader_total s.opA
  cases d with
  | needMore k =>
    cases (exec_frameDecode_needMore hA hd).symm.trans ht
    refine ⟨decodeHeader_needMore_pos hd, fun more hmore hfit => ?_⟩
    rw [← List.length_append] at hfit
    change ∃ u, _ ∧ (_ ∨ _ ∧ decodeStage s.opA (errorResult 0x01#8 k) < _)
    rcases decodeHeader_append_count hd hmore with ⟨hlt, hge⟩ | ⟨hge, h, hhdr⟩
    · rw [decodeStage_needMore, if_pos hlt]
      exact exec_frameDecode_past_byte1 hfit hge
    · rw [decodeStage_needMore, if_neg (Nat.not_lt.mpr hge)]
      obtain ⟨u, hu, hstage⟩ := exec_frameDecode_past_header (s := { s with opA := s.opA ++ more }) hfit hhdr
      exact ⟨u, hu, hstage.imp_right (And.imp_right fun hstage => hstage.ge)⟩
  | header h =>
    by_cases hwhole : frameLen h ≤ s.opA.length
    · cases (exec_frameDecode_whole hA hd hwhole).symm.trans ht
      exact absurd (show (0x00#8 : BitVec 8) = 0x01#8 from hst) (by decide)
    · cases (exec_frameDecode_short hA hd (Nat.not_le.mp hwhole)).symm.trans ht
      refine ⟨Nat.sub_pos_of_lt (Nat.not_le.mp hwhole), fun more hmore hfit => ?_⟩
      have hmore : more.length = frameLen h - s.opA.length := hmore
      refine ⟨_, exec_frameDecode_whole (by simpa using hfit) (decodeHeader_append more hd) ?_, .inl rfl⟩
      simp only [List.length_append]
      omega

end Sys2Proof.Machine
end

section
/-! UNMASK twice (41_unmask.md R132), and the form of the accept key (45_accept_key.md R228). -/

namespace Sys2Proof.Machine

/-- Settles O18: the second unmasking undoes the first. -/
theorem unmaskTwiceRestoresThePayload : Obligations.UnmaskTwiceRestoresThePayload := by
  unfold Obligations.UnmaskTwiceRestoresThePayload
  intro s t hA hB hkey ht
  cases (exec_unmask_ok hA hB hkey).symm.trans ht
  exact ⟨_, exec_unmask_ok (by simpa using hA) hB hkey, rfl, unmask_unmask _ _⟩

/-- Settles O49: a digest of 20 bytes ends in a group of two, which is padded with one character. -/
theorem acceptKeyIs28Bytes : Obligations.AcceptKeyIs28Bytes := by
  unfold Obligations.AcceptKeyIs28Bytes
  intro s hfit hlimit
  refine ⟨_, exec_acceptKey_ok hfit hlimit, rfl, ?_, ?_⟩
  · simp only [base64_length, sha1_length]
  · have hlast := base64_final_two (m := sha1 (s.opA ++ guid)) (j := 6) (fun _ _ => rfl) (sha1_length _).symm rfl
    change (base64 (sha1 (s.opA ++ guid)))[4 * 6 + 3]? = _
    rw [← List.getElem?_drop, hlast]
    rfl

end Sys2Proof.Machine
end

section
/-! The common checks of every command, and what a command can read and write (10_state.md R20, R24, R36; 60_exceptions.md
R254, R259). -/

namespace Sys2Proof.Machine

/-! Every command is its checks and then its body. -/

/-- The operands a command uses, each with its number. -/
def usedWith (i : Instr) (s : State) : List (Nat × Bytes) := (usedOperands i).map fun k => (k, operand s k)

theorem exec_eq_plainCommand {i : Instr} (hi : i.isSession = false) (s : State) :
    ∃ body, exec i s = plainCommand i.sid (usedWith i s) s body := by
  cases i
  case sessionOpen | sessionFeed | sessionClose | sessionQuery => cases hi
  all_goals exact ⟨_, rfl⟩

theorem exec_eq_sessionCommand {i : Instr} (hi : i.isSession = true) (s : State) :
    ∃ body, exec i s = sessionCommand i.sid (usedWith i s) s body := by
  cases i
  case sessionOpen | sessionFeed | sessionClose | sessionQuery => exact ⟨_, rfl⟩
  all_goals cases hi

theorem exec_of_not_wellFormed {i : Instr} {s : State} (h : i.wellFormed s.ctxs.length = false) :
    exec i s = answers s (errorResult 0x11#8 0) := by
  rw [← Bool.not_eq_true, wellFormed_iff] at h
  cases hi : i.isSession with
  | false =>
    obtain ⟨body, hexec⟩ := exec_eq_plainCommand hi s
    rw [hexec, plainCommand_of_sid_ne (by simpa [hi] using h)]
  | true =>
    obtain ⟨body, hexec⟩ := exec_eq_sessionCommand hi s
    rw [hexec, sessionCommand_of_length_le (by simpa [hi] using h)]

theorem exec_of_overlong {i : Instr} {s : State} {k : Nat} (h : i.wellFormed s.ctxs.length = true)
    (hlong : overlong s.cfg.maxOperand (usedWith i s) = some k) : exec i s = answers s (errorResult 0x11#8 k) := by
  rw [wellFormed_iff] at h
  cases hi : i.isSession with
  | false =>
    obtain ⟨body, hexec⟩ := exec_eq_plainCommand hi s
    have hsid : i.sid = 0#8 := by simpa [hi] using h
    rw [hexec, hsid, plainCommand_of_overlong hlong]
  | true =>
    obtain ⟨body, hexec⟩ := exec_eq_sessionCommand hi s
    have hlt : i.sid.toNat < s.ctxs.length := by simpa [hi] using h
    rw [hexec, sessionCommand_of_overlong (List.getElem?_eq_getElem hlt) hlong]

/-- The numbers of the used operands are listed lowest first. -/
theorem usedOperands_sorted (i : Instr) : (usedOperands i).Pairwise (· < ·) := by
  cases i <;> simp [usedOperands]

/-- In a list of operands with the lowest number first, the overlong one with the lowest number is found. -/
theorem overlong_map_eq_some {m k : Nat} {b : Nat → Bytes} {l : List Nat} (hl : l.Pairwise (· < ·)) (hk : k ∈ l)
    (hlong : m < (b k).length) (hbefore : ∀ j ∈ l, j < k → (b j).length ≤ m) :
    overlong m (l.map fun j => (j, b j)) = some k := by
  induction l with
  | nil => cases hk
  | cons j l ih =>
    obtain ⟨hj, hl⟩ := List.pairwise_cons.mp hl
    obtain ⟨hfirst, hbefore⟩ := List.forall_mem_cons.mp hbefore
    rcases List.mem_cons.mp hk with rfl | hk
    · exact overlong_cons_of_lt hlong
    · exact (overlong_cons_of_le (hfirst (hj k hk))).trans (ih hl hk hbefore)

/-! Two runs of a command that see the same. -/

/-- The own context is written, or no context is. -/
def ownCtx (sid : BitVec 8) : Option Ctx → State → State
  | none, s => s
  | some d, s => setCtx sid d s

/-- Two outcomes of a command, from the states `s` and `s'`, write the same result record and the same own context. -/
def SameAnswer (i : Instr) (s s' : State) (o o' : Host.Outcome State Fault Refusal) : Prop :=
  ∃ d r, (d.isSome = true → i.isSession = true) ∧ o = complete r (ownCtx i.sid d s) ∧
    o' = complete r (ownCtx i.sid d s')

section
variable {i : Instr} {s s' : State}

theorem sameAnswer_complete (r : Result) : SameAnswer i s s' (complete r s) (complete r s') :=
  ⟨none, r, by simp, rfl, rfl⟩

theorem sameAnswer_raise (st : Status) (info : Nat) : SameAnswer i s s' (raise st info s) (raise st info s') :=
  sameAnswer_complete _

theorem sameAnswer_completeCtx (hi : i.isSession = true) (d : Ctx) (r : Result) :
    SameAnswer i s s' (completeCtx i.sid d r s) (completeCtx i.sid d r s') :=
  ⟨some d, r, fun _ => hi, rfl, rfl⟩

theorem sameAnswer_plainCommand {used used' : List (Nat × Bytes)} {body body' : Host.Outcome State Fault Refusal}
    (hcfg : s.cfg = s'.cfg) (hused : used = used') (hbody : SameAnswer i s s' body body') :
    SameAnswer i s s' (plainCommand i.sid used s body) (plainCommand i.sid used' s' body') := by
  subst hused
  unfold plainCommand
  rw [hcfg]
  split
  · exact sameAnswer_raise _ _
  · split
    · exact sameAnswer_raise _ _
    · exact hbody

theorem sameAnswer_sessionCommand {used used' : List (Nat × Bytes)} {body body' : Ctx → Host.Outcome State Fault Refusal}
    (hcfg : s.cfg = s'.cfg) (hctx : ctxAt s i.sid = ctxAt s' i.sid) (hused : used = used')
    (hbody : ∀ c, SameAnswer i s s' (body c) (body' c)) :
    SameAnswer i s s' (sessionCommand i.sid used s body) (sessionCommand i.sid used' s' body') := by
  subst hused
  unfold sessionCommand
  rw [hcfg, hctx]
  split
  · exact sameAnswer_raise _ _
  · split
    · exact sameAnswer_raise _ _
    · exact hbody _

end

/-- A command's answer depends on the parameters, the operands it uses and, for a session command, its own context. -/
theorem exec_sameAnswer {i : Instr} {s s' : State} (hcfg : s.cfg = s'.cfg)
    (hops : ∀ k ∈ usedOperands i, operand s k = operand s' k)
    (hctx : i.isSession = true → ctxAt s i.sid = ctxAt s' i.sid) : SameAnswer i s s' (exec i s) (exec i s') := by
  cases i with
  | hdrDecode sid =>
    have hA : s.opA = s'.opA := hops 1 (by simp [usedOperands])
    refine sameAnswer_plainCommand hcfg (by rw [hA]) ?_
    rw [hA]
    obtain ⟨d, hd⟩ := decodeHeader_total s'.opA
    rw [hd]
    cases d <;> exact sameAnswer_complete _
  | frameDecode sid =>
    have hA : s.opA = s'.opA := hops 1 (by simp [usedOperands])
    refine sameAnswer_plainCommand hcfg (by rw [hA]) ?_
    rw [hA]
    obtain ⟨d, hd⟩ := decodeHeader_total s'.opA
    rw [hd]
    cases d with
    | needMore k => exact sameAnswer_complete _
    | header h =>
      simp only [orFault_ok]
      split
      · exact sameAnswer_complete _
      · rename_i hshort
        rw [framePayload_eq (Nat.not_lt.mp hshort)]
        exact sameAnswer_complete _
  | unmask sid =>
    have hA : s.opA = s'.opA := hops 1 (by simp [usedOperands])
    have hB : s.opB = s'.opB := hops 2 (by simp [usedOperands])
    refine sameAnswer_plainCommand hcfg (by rw [hA, hB]) ?_
    rw [hA, hB]
    split
    · exact sameAnswer_raise _ _
    · exact sameAnswer_complete _
  | sessionOpen sid =>
    have hA : s.opA = s'.opA := hops 1 (by simp [usedOperands])
    refine sameAnswer_sessionCommand hcfg (hctx rfl) (by rw [hA]) fun c => ?_
    rw [hA]
    split
    · exact sameAnswer_raise _ _
    · split
      · exact sameAnswer_raise _ _
      · exact sameAnswer_completeCtx rfl _ _
  | sessionFeed sid =>
    have hA : s.opA = s'.opA := hops 1 (by simp [usedOperands])
    refine sameAnswer_sessionCommand hcfg (hctx rfl) (by rw [hA]) fun c => ?_
    rw [hA, hcfg]
    split
    · exact sameAnswer_raise _ _
    · obtain ⟨e, he⟩ := feedFrom_total s'.cfg c.variant 0 (c.pend ++ s'.opA) c.acc []
      rw [feed_eq_feedFrom, he]
      cases e <;> exact sameAnswer_completeCtx rfl _ _
  | sessionClose sid =>
    exact sameAnswer_sessionCommand (i := .sessionClose sid) (used := []) hcfg (hctx rfl) rfl fun _ =>
      sameAnswer_completeCtx rfl _ _
  | sessionQuery sid =>
    exact sameAnswer_sessionCommand (i := .sessionQuery sid) (used := []) hcfg (hctx rfl) rfl fun _ =>
      sameAnswer_complete _
  | encodeText sid =>
    have hA : s.opA = s'.opA := hops 1 (by simp [usedOperands])
    refine sameAnswer_plainCommand hcfg (by rw [hA]) ?_
    rw [hA]
    exact sameAnswer_complete _
  | keyReduce sid =>
    have hA : s.opA = s'.opA := hops 1 (by simp [usedOperands])
    refine sameAnswer_plainCommand hcfg (by rw [hA]) ?_
    rw [hA, hcfg]
    split
    · exact sameAnswer_raise _ _
    · exact sameAnswer_complete _
  | legacyToken sid =>
    have hA : s.opA = s'.opA := hops 1 (by simp [usedOperands])
    have hB : s.opB = s'.opB := hops 2 (by simp [usedOperands])
    have hC : s.opC = s'.opC := hops 3 (by simp [usedOperands])
    refine sameAnswer_plainCommand hcfg (by rw [hA, hB, hC]) ?_
    rw [hA, hB, hC, hcfg]
    split
    · exact sameAnswer_raise _ _
    · split
      · exact sameAnswer_raise _ _
      · split
        · exact sameAnswer_raise _ _
        · exact sameAnswer_complete _
  | acceptKey sid =>
    have hA : s.opA = s'.opA := hops 1 (by simp [usedOperands])
    refine sameAnswer_plainCommand hcfg (by rw [hA]) ?_
    rw [hA]
    split
    · exact sameAnswer_raise _ _
    · exact sameAnswer_complete _

/-- Settles O39: the SID, then the lowest-numbered overlong operand; an operand that is not used is not read. -/
theorem commonChecksInOrder : Obligations.CommonChecksInOrder := by
  unfold Obligations.CommonChecksInOrder
  refine fun i s => ⟨exec_of_not_wellFormed, fun k hwf hk hlong hbefore => ?_, fun a b c hops => ?_⟩
  · exact exec_of_overlong hwf (overlong_map_eq_some (usedOperands_sorted i) hk hlong hbefore)
  · obtain ⟨d, r, -, ht, hu⟩ :=
      exec_sameAnswer (s := s) (s' := { s with opA := a, opB := b, opC := c }) rfl (fun k hk => (hops k hk).symm)
        fun _ => rfl
    refine ⟨_, _, ht, hu, rfl, ?_⟩
    cases d <;> rfl

/-- The own context after a command, from the one before it. -/
theorem ownCtx_getElem? (sid : BitVec 8) (d : Option Ctx) (s : State) :
    (ownCtx sid d s).ctxs[sid.toNat]? = s.ctxs[sid.toNat]?.map fun c => d.getD c := by
  cases d with
  | none => simp [ownCtx]
  | some d => rw [ownCtx, setCtx_ctxs, List.getElem?_set_self']; rfl

/-- Settles O33: equal views give the same record and the same own context. -/
theorem resultDependsOnlyOnUsedOperandsAndOwnContext : Obligations.ResultDependsOnlyOnUsedOperandsAndOwnContext := by
  unfold Obligations.ResultDependsOnlyOnUsedOperandsAndOwnContext
  intro i s s' t t' hcfg hops hctx ht ht'
  obtain ⟨d, r, -, h, h'⟩ := exec_sameAnswer hcfg hops hctx
  cases h.symm.trans ht
  cases h'.symm.trans ht'
  refine ⟨rfl, fun hi => ?_⟩
  rw [finish_ctxs, finish_ctxs, ownCtx_getElem?, ownCtx_getElem?, hctx hi]

theorem exec_sessionQuery_ctxs {sid : BitVec 8} {s t : State} (ht : exec (.sessionQuery sid) s = .next t) :
    t.ctxs = s.ctxs := by
  rcases execSessionQuery_cases sid s with h | ⟨_, _, h⟩ <;> cases h.symm.trans ht <;> rfl

/-- Settles O32: the two shapes of an answer; SESSION_QUERY has the first. -/
theorem commandsWriteOnlyResultAndOwnContext : Obligations.CommandsWriteOnlyResultAndOwnContext := by
  unfold Obligations.CommandsWriteOnlyResultAndOwnContext
  intro i s t ht
  have hquery : i = .sessionQuery i.sid → t.ctxs = s.ctxs := fun hq => exec_sessionQuery_ctxs (hq ▸ ht)
  rcases exec_elim ht with ⟨r, rfl⟩ | ⟨c, d, r, hi, -, rfl⟩
  · exact ⟨rfl, rfl, fun _ _ => rfl, fun _ => rfl, hquery⟩
  · exact ⟨rfl, by simp, fun k hk => ctxs_setCtx_ne hk, fun hplain => by simp [hi] at hplain, hquery⟩

/-! Two commands in either order. -/

/-- The context file with the context `sid` written, or as it was. -/
def putCtx (sid : BitVec 8) : Option Ctx → List Ctx → List Ctx
  | none, l => l
  | some d, l => l.set sid.toNat d

@[simp] theorem ownCtx_ctxs (sid : BitVec 8) (d : Option Ctx) (s : State) :
    (ownCtx sid d s).ctxs = putCtx sid d s.ctxs := by
  cases d <;> rfl

theorem putCtx_comm {sid sid' : BitVec 8} {d e : Option Ctx}
    (hne : d.isSome = true → e.isSome = true → sid ≠ sid') (l : List Ctx) :
    putCtx sid d (putCtx sid' e l) = putCtx sid' e (putCtx sid d l) := by
  cases d with
  | none => rfl
  | some d =>
    cases e with
    | none => rfl
    | some e => exact (List.set_comm _ _ (mt BitVec.eq_of_toNat_eq (hne rfl rfl))).symm

theorem exec_cfg {i : Instr} {s t : State} (ht : exec i s = .next t) : t.cfg = s.cfg := by
  rw [(commandsWriteOnlyResultAndOwnContext i s t ht).1]

/-- A command on another context, or on none, leaves a session command's own context as it was. -/
theorem ctxAt_exec_other {i j : Instr} {s t : State} (hne : i.isSession = true → j.isSession = true → i.sid ≠ j.sid)
    (ht : exec j s = .next t) (hi : i.isSession = true) : ctxAt t i.sid = ctxAt s i.sid := by
  obtain ⟨-, -, hframe, hplain, -⟩ := commandsWriteOnlyResultAndOwnContext j s t ht
  unfold ctxAt
  cases hj : j.isSession with
  | false => rw [hplain hj]
  | true => exact hframe _ (mt BitVec.eq_of_toNat_eq (hne hi hj))

/-- A command run later, after another one on another context, writes the context it would have written at once. -/
theorem exec_now_and_later {i j : Instr} {s s' u : State} (hne : i.isSession = true → j.isSession = true → i.sid ≠ j.sid)
    {c : Command} {later later' : List HostAction} (hs' : s'.cfg = s.cfg ∧ s'.ctxs = s.ctxs)
    (hu : exec j s' = .next u) :
    ∃ d r, (d.isSome = true → i.isSession = true) ∧
      exec i (present s c later) = complete r (ownCtx i.sid d (present s c later)) ∧
      exec i (present u c later') = complete r (ownCtx i.sid d (present u c later')) := by
  obtain ⟨hcfg, hctxs⟩ := hs'
  refine exec_sameAnswer ((exec_cfg hu).trans hcfg).symm (fun _ _ => rfl) fun hi => ?_
  have hctx := ctxAt_exec_other hne hu hi
  unfold ctxAt at hctx ⊢
  rw [present_ctxs, present_ctxs, hctx, hctxs]

/-- Settles O34: each command writes the same context first or second, and the two writes commute. -/
theorem commandsOnDifferentContextsCommute : Obligations.CommandsOnDifferentContextsCommute := by
  unfold Obligations.CommandsOnDifferentContextsCommute
  intro s a b i j hi hj hne
  have hne' (hj : j.isSession = true) (hi : i.isSession = true) : j.sid ≠ i.sid := (hne hi hj).symm
  obtain ⟨t, ht⟩ := exec_total i (present s a [.issue b])
  obtain ⟨u, hu⟩ := exec_total j (present s b [.issue a])
  obtain ⟨d, r, hd, hit, hiu⟩ := exec_now_and_later (c := a) (later := [.issue b]) (later' := []) hne ⟨rfl, rfl⟩ hu
  obtain ⟨e, q, he, hju, hjt⟩ := exec_now_and_later (c := b) (later := [.issue a]) (later' := []) hne' ⟨rfl, rfl⟩ ht
  have htp : t.pending = [.issue b] := by rw [(commandsWriteOnlyResultAndOwnContext i _ t ht).1]; rfl
  have hup : u.pending = [.issue a] := by rw [(commandsWriteOnlyResultAndOwnContext j _ u hu).1]; rfl
  refine ⟨t, _, u, _, (step_issue_ok rfl hi).trans ht, (step_issue_ok htp hj).trans hjt,
    (step_issue_ok rfl hj).trans hu, (step_issue_ok hup hi).trans hiu, ?_⟩
  cases hit.symm.trans ht
  cases hju.symm.trans hu
  simp only [finish_ctxs, ownCtx_ctxs, present_ctxs]
  exact putCtx_comm (fun hej hdi => hne' (he hej) (hd hdi)) s.ctxs

end Sys2Proof.Machine
end

section
/-! A stream delivered in chunks (42_session.md R150, R160). -/

namespace Sys2Proof.Machine

theorem ctxOk_opened_iff {cfg : Config} {c : Ctx} (ho : c.state = .opened) :
    ctxOk cfg c = true ↔ c.fault = 0#8 ∧ capAdmits cfg.pendCap c.pend.length = true ∧
      capAdmits cfg.accCap c.acc.length = true ∧ partialFrame c.variant c.pend = true := by
  simp [ctxOk, ho, and_assoc]

theorem set_ctxAt_self {s : State} {sid : BitVec 8} {c : Ctx} (hc : ctxAt s sid = some c) :
    s.ctxs.set sid.toNat c = s.ctxs := by
  obtain ⟨hlt, rfl⟩ := List.getElem?_eq_some_iff.mp hc
  exact List.set_getElem_self hlt

/-- Settles O25: `PEND` of a sound context is a tail that fits, so the feed stores it again. -/
theorem emptyChunkChangesNothing : Obligations.EmptyChunkChangesNothing := by
  unfold Obligations.EmptyChunkChangesNothing
  intro sid s c hc ho hok hA
  obtain ⟨-, hcap, -, hpart⟩ := (ctxOk_opened_iff ho).mp hok
  have hend : feedFrom s.cfg c.variant 0 (c.pend ++ s.opA) c.acc [] = .ok (.done c.pend c.acc []) := by
    rw [hA, List.append_nil, feedFrom_tail hpart hcap]
  rw [exec_sessionFeed_opened hc (by simp [hA]) ho hend]
  exact congrArg (fun l => Host.Outcome.next { s with
    ctxs := l, result := { Result.null with status := 0x00#8 }, resultValid := true }) (set_ctxAt_self hc)

/-! What a feed's end gives the host, and the context it leaves (42_session.md R149, R153). -/

namespace FeedEnd

/-- The status the feed reports. -/
def code : FeedEnd → BitVec 8
  | .done _ _ _ => 0x00#8
  | .faulted st _ _ => statusCode st

/-- The messages the feed emits. -/
def messages : FeedEnd → List Bytes
  | .done _ _ msgs => msgs
  | .faulted _ _ msgs => msgs

/-- The context the feed leaves of the context `c`. -/
def ctx (c : Ctx) : FeedEnd → Ctx
  | .done pend acc _ => { c with pend := pend, acc := acc }
  | .faulted st _ _ => { c with state := .faulted, fault := statusCode st, pend := [], acc := [] }

@[simp] theorem code_shift (off : Nat) (before : List Bytes) (e : FeedEnd) : (e.shift off before).code = e.code := by
  cases e <;> rfl

@[simp] theorem messages_shift (off : Nat) (before : List Bytes) (e : FeedEnd) :
    (e.shift off before).messages = before ++ e.messages := by
  cases e <;> rfl

end FeedEnd

/-- A feed of an OPEN context reports the loop's end. -/
theorem exec_sessionFeed_reports {sid : BitVec 8} {s : State} {c : Ctx} {e : FeedEnd} (hc : ctxAt s sid = some c)
    (hfit : s.opA.length ≤ s.cfg.maxOperand) (ho : c.state = .opened)
    (he : feedFrom s.cfg c.variant 0 (c.pend ++ s.opA) c.acc [] = .ok e) :
    ∃ t, exec (.sessionFeed sid) s = .next t ∧ t.cfg = s.cfg ∧ t.result.status = e.code ∧
      t.result.msgs = e.messages ∧ t.ctxs = s.ctxs.set sid.toNat (e.ctx c) := by
  rw [exec_sessionFeed_opened hc hfit ho he]
  cases e <;> exact ⟨_, rfl, rfl, rfl, rfl, rfl⟩

theorem code_ne_ok_of_faulted {cfg : Config} {v : Variant} {off : Nat} {rest acc : Bytes} {msgs msgs' : List Bytes}
    {st : Status} {info : Nat} (he : feedFrom cfg v off rest acc msgs = .ok (.faulted st info msgs')) :
    (FeedEnd.faulted st info msgs').code ≠ 0x00#8 := by
  rcases feedFrom_faulted_facts he with ⟨rfl, -⟩ | ⟨rfl, -⟩ <;> simp [FeedEnd.code, statusCode]

section
variable {sid : BitVec 8} {s t : State} {chunk : Bytes} (ht : exec (.sessionFeed sid) { s with opA := chunk } = .next t)
include ht

theorem feedAll_cons_of_ok (hst : t.result.status = 0x00#8) {more : List Bytes} {msgs : List Bytes} {u : State}
    (hmore : feedAll sid more t = some (msgs, u)) :
    feedAll sid (chunk :: more) s = some (t.result.msgs ++ msgs, u) := by
  simp [feedAll, ht, hst, hmore, statusCode]

theorem feedAll_cons_of_not_ok (hst : t.result.status ≠ 0x00#8) (more : List Bytes) :
    feedAll sid (chunk :: more) s = some (t.result.msgs, t) := by
  simp [feedAll, ht, hst, statusCode]

end

/-- Delivery in chunks ends as one feed of the whole stream does: when no chunk faults, and always without a bound on
`PEND`. -/
theorem feedAll_eq_feed (sid : BitVec 8) {chunks : List Bytes} (hne : chunks ≠ []) {s : State} {c : Ctx}
    (hc : ctxAt s sid = some c) (ho : c.state = .opened) (hfit : chunks.flatten.length ≤ s.cfg.maxOperand) :
    ∃ msgs t, feedAll sid chunks s = some (msgs, t) ∧
      (t.result.status = 0x00#8 ∨ s.cfg.pendCap = .unbounded →
        ∃ e, feedFrom s.cfg c.variant 0 (c.pend ++ chunks.flatten) c.acc [] = .ok e ∧ t.result.status = e.code ∧
          msgs = e.messages ∧ t.ctxs = s.ctxs.set sid.toNat (e.ctx c)) := by
  induction chunks generalizing s c with
  | nil => exact absurd rfl hne
  | cons chunk more ih =>
    rw [List.flatten_cons, List.length_append] at hfit
    obtain ⟨e, he⟩ := feedFrom_total s.cfg c.variant 0 (c.pend ++ chunk) c.acc []
    obtain ⟨t, ht, hcfg, hst, hmsgs, hctxs⟩ :=
      exec_sessionFeed_reports (s := { s with opA := chunk }) hc (by simp only; omega) ho he
    cases e with
    | faulted st info msgs =>
      have hbad : t.result.status ≠ 0x00#8 := hst ▸ code_ne_ok_of_faulted he
      refine ⟨_, t, feedAll_cons_of_not_ok ht hbad more, fun hok => ?_⟩
      have hcap : ∀ n, capAdmits s.cfg.pendCap n = true := fun n => by rw [hok.resolve_left hbad]; rfl
      rw [List.flatten_cons, ← List.append_assoc]
      exact ⟨_, feedFrom_append_of_faulted _ hcap he, hst, hmsgs, hctxs⟩
    | done pend acc msgs =>
      by_cases hlast : more = []
      · subst hlast
        refine ⟨_, t, feedAll_cons_of_ok ht hst rfl, fun _ => ⟨_, by simpa using he, hst, ?_, hctxs⟩⟩
        rw [List.append_nil, hmsgs]
      · have hc' : ctxAt t sid = some { c with pend := pend, acc := acc } := by
          rw [ctxAt, hctxs, List.getElem?_set_self (ctxAt_lt hc)]
          rfl
        obtain ⟨msgs', u, hu, hwhole⟩ := ih hlast hc' ho (by rw [hcfg]; simp only; omega)
        refine ⟨_, u, feedAll_cons_of_ok ht hst hu, fun hok => ?_⟩
        rw [hcfg] at hwhole
        obtain ⟨e', he', hst', hmsgs', hctxs'⟩ := hwhole hok
        obtain ⟨off, hoff⟩ := feedFrom_append_of_done more.flatten he
        refine ⟨e'.shift off msgs, ?_, by simpa using hst', ?_, ?_⟩
        · rw [List.flatten_cons, ← List.append_assoc, hoff, feedFrom_eq_shift, he']
          rfl
        · rw [FeedEnd.messages_shift, hmsgs, hmsgs']
          rfl
        · rw [hctxs', hctxs, List.set_set]
          cases e' <;> rfl

/-- Settles O23: the feed that ends as the chunks do. -/
theorem chunkedDeliveryKeepsFraming : Obligations.ChunkedDeliveryKeepsFraming := by
  unfold Obligations.ChunkedDeliveryKeepsFraming
  rintro sid s t chunks msgs hne ⟨c, hc, ho⟩ hfit hall hst
  obtain ⟨msgs', t', hall', hwhole⟩ := feedAll_eq_feed sid hne hc ho hfit
  cases hall'.symm.trans hall
  obtain ⟨e, he, hcode, hmsgs, hctxs⟩ := hwhole (.inl hst)
  obtain ⟨u, hu, -, hst', hmsgs', hctxs'⟩ :=
    exec_sessionFeed_reports (s := { s with opA := chunks.flatten }) hc hfit ho he
  exact ⟨u, hu, by rw [hst', ← hcode, hst], hmsgs'.trans hmsgs.symm, hctxs'.trans hctxs.symm⟩

/-- Settles O24: the same, also when a chunk faults. -/
theorem chunkedDeliveryAgreesWithoutCapacities : Obligations.ChunkedDeliveryAgreesWithoutCapacities := by
  unfold Obligations.ChunkedDeliveryAgreesWithoutCapacities
  rintro sid s chunks hne ⟨c, hc, ho⟩ hfit hpend -
  obtain ⟨msgs, t, hall, hwhole⟩ := feedAll_eq_feed sid hne hc ho hfit
  obtain ⟨e, he, hcode, hmsgs, hctxs⟩ := hwhole (.inr hpend)
  obtain ⟨u, hu, -, hst', hmsgs', hctxs'⟩ :=
    exec_sessionFeed_reports (s := { s with opA := chunks.flatten }) hc hfit ho he
  exact ⟨t, u, msgs, hall, hu, hst'.trans hcode.symm, hmsgs'.trans hmsgs.symm, hctxs'.trans hctxs.symm⟩

end Sys2Proof.Machine
end

section
/-! What a step can do to a context (10_state.md R31 to R36; 42_session.md R140, R149, R153, R157). -/

namespace Sys2Proof.Machine

/-- The ways a command changes its own context: SESSION_OPEN opens an IDLE one, a feed of an OPEN one leaves it OPEN or faults
it, and SESSION_CLOSE makes it IDLE. -/
inductive Moves (i : Instr) (s : State) (c : Ctx) : Ctx → Prop where
  | opens (hi : i = .sessionOpen i.sid) (hidle : c.state = .idle) (v : Variant) :
    Moves i s c { state := .opened, variant := v, fault := 0#8, pend := [], acc := [] }
  | feeds (hi : i = .sessionFeed i.sid) (ho : c.state = .opened) {pend acc : Bytes} {msgs : List Bytes}
    (hfeed : feed s.cfg c s.opA = .ok (.done pend acc msgs)) : Moves i s c { c with pend := pend, acc := acc }
  | faults (hi : i = .sessionFeed i.sid) (ho : c.state = .opened) {st : Status} {info : Nat} {msgs : List Bytes}
    (hfeed : feed s.cfg c s.opA = .ok (.faulted st info msgs)) :
    Moves i s c { c with state := .faulted, fault := statusCode st, pend := [], acc := [] }
  | closes (hi : i = .sessionClose i.sid) : Moves i s c Ctx.idle

theorem exec_moves {i : Instr} {s t : State} (ht : exec i s = .next t) :
    t.ctxs = s.ctxs ∨ ∃ c d, ctxAt s i.sid = some c ∧ Moves i s c d ∧ t.ctxs = s.ctxs.set i.sid.toNat d := by
  obtain ⟨-, -, -, hplain, hquery⟩ := commandsWriteOnlyResultAndOwnContext i s t ht
  cases i with
  | hdrDecode | frameDecode | unmask | encodeText | keyReduce | legacyToken | acceptKey => exact .inl (hplain rfl)
  | sessionQuery sid => exact .inl (hquery rfl)
  | sessionOpen sid =>
    rcases execSessionOpen_cases sid s with ⟨_, _, h⟩ | ⟨_, _, _, h⟩ | ⟨c, v, hc, hidle, _, h⟩ <;>
      cases h.symm.trans ht
    · exact .inl rfl
    · exact .inl rfl
    · exact .inr ⟨c, _, hc, .opens rfl hidle v, rfl⟩
  | sessionFeed sid =>
    rcases execSessionFeed_cases sid s with ⟨_, _, h⟩ | ⟨_, _, _, h⟩ | ⟨c, _, _, _, hc, ho, hfeed, h⟩ |
      ⟨c, _, _, _, hc, ho, hfeed, h⟩ <;> cases h.symm.trans ht
    · exact .inl rfl
    · exact .inl rfl
    · exact .inr ⟨c, _, hc, .feeds rfl ho hfeed, rfl⟩
    · exact .inr ⟨c, _, hc, .faults rfl ho hfeed, rfl⟩
  | sessionClose sid =>
    rcases execSessionClose_cases sid s with h | ⟨c, hc, h⟩ <;> cases h.symm.trans ht
    · exact .inl rfl
    · exact .inr ⟨c, _, hc, .closes rfl, rfl⟩

/-- What a step makes of one context: it stays, a reset clears it, or the command that names it moves it. -/
theorem step_ctx_cases {s t : State} {k : Nat} {c d : Ctx} (hc : s.ctxs[k]? = some c) (hd : t.ctxs[k]? = some d)
    (hs : step s = .next t) :
    d = c ∨ (d = Ctx.idle ∧ ∃ later, s.pending = .reset :: later) ∨
      ∃ cmd later i, s.pending = .issue cmd :: later ∧ decode cmd.cmd = .ok i ∧ i.sid.toNat = k ∧
        Moves i (present s cmd later) c d := by
  match hp : s.pending with
  | [] =>
    cases (step_idle hp).symm.trans hs
    exact .inl (Option.some.inj (hd.symm.trans hc))
  | .reset :: later =>
    cases (step_reset hp).symm.trans hs
    rw [resetBlock_ctxs] at hd
    exact .inr (.inl ⟨List.eq_of_mem_replicate (List.mem_of_getElem? hd), later, rfl⟩)
  | .issue cmd :: later =>
    rcases step_issue_elim hp hs with ⟨i, hi, ht⟩ | ⟨op, -, rfl⟩
    · rcases exec_moves ht with heq | ⟨c', d', hc', hmove, hset⟩
      · rw [heq] at hd
        exact .inl (Option.some.inj (hd.symm.trans hc))
      · rw [hset] at hd
        by_cases hk : i.sid.toNat = k
        · subst hk
          rw [List.getElem?_set_self (ctxAt_lt hc')] at hd
          cases hd
          cases hc'.symm.trans hc
          exact .inr (.inr ⟨cmd, later, i, rfl, hi, rfl, hmove⟩)
        · rw [List.getElem?_set_ne hk] at hd
          exact .inl (Option.some.inj (hd.symm.trans hc))
    · exact .inl (Option.some.inj (hd.symm.trans hc))

/-- Settles O29: only SESSION_CLOSE moves a FAULTED context. -/
theorem faultedContextStaysUntilClosed : Obligations.FaultedContextStaysUntilClosed := by
  unfold Obligations.FaultedContextStaysUntilClosed
  intro s t k c hc hfaulted hs hreset hclose
  obtain ⟨hk, -⟩ := List.getElem?_eq_some_iff.mp hc
  obtain ⟨-, hlen, -⟩ := stepKeepsParametersAndOperands s t hs
  obtain ⟨d, hd⟩ : ∃ d, t.ctxs[k]? = some d := ⟨_, List.getElem?_eq_getElem (hlen ▸ hk)⟩
  rcases step_ctx_cases hc hd hs with hsame | ⟨-, later, hp⟩ | ⟨cmd, later, i, hp, hi, hsid, hmove⟩
  · rw [hd, hsame]
  · exact absurd hp (hreset later)
  · exfalso
    cases hmove with
    | opens _ hidle => simp [hfaulted] at hidle
    | feeds _ ho => simp [hfaulted] at ho
    | faults _ ho => simp [hfaulted] at ho
    | closes hi' => exact hclose cmd later i.sid hp (hi' ▸ hi) hsid

/-- Settles O30: the state before and after each way a context moves. -/
theorem onlySessionCommandsMoveCtxState : Obligations.OnlySessionCommandsMoveCtxState := by
  unfold Obligations.OnlySessionCommandsMoveCtxState
  intro s t k c d hc hd hs hne
  rcases step_ctx_cases hc hd hs with rfl | ⟨rfl, later, hp⟩ | ⟨cmd, later, i, hp, hi, hsid, hmove⟩
  · exact absurd rfl hne
  · exact .inl ⟨later, hp, rfl⟩
  · refine .inr ⟨cmd, later, i, hp, hi, hsid, ?_⟩
    cases hmove with
    | opens hi' hidle => exact .inl ⟨hi', hidle, rfl⟩
    | feeds => exact absurd rfl hne
    | faults hi' ho => exact .inr (.inl ⟨hi', ho, rfl⟩)
    | closes hi' => exact .inr (.inr ⟨hi', rfl⟩)

/-- Settles O31: the ways between live states keep the variant. -/
theorem variantFixedWhileLive : Obligations.VariantFixedWhileLive := by
  unfold Obligations.VariantFixedWhileLive
  intro s t k c d hc hd hs hbefore hafter
  rcases step_ctx_cases hc hd hs with rfl | ⟨rfl, -⟩ | ⟨_, _, _, -, -, -, hmove⟩
  · rfl
  · exact absurd rfl hafter
  · cases hmove with
    | opens _ hidle => exact absurd hidle hbefore
    | feeds => rfl
    | faults => rfl
    | closes => exact absurd rfl hafter

/-- The status of a code (60_exceptions.md R250). -/
def statusOf (code : BitVec 8) : Option Status :=
  [.ok, .needMore, .illegalCommand, .badOperand, .sessionState, .malformedKey, .protocolViolation, .bufferOverflow].find?
    fun st => decide (statusCode st = code)

theorem statusOf_statusCode (st : Status) : statusOf (statusCode st) = some st := by
  cases st <;> decide

/-- The codes tell the statuses apart. -/
theorem statusCode_injective {st st' : Status} (h : statusCode st = statusCode st') : st = st' := by
  have hsome : some st = some st' := by rw [← statusOf_statusCode, ← statusOf_statusCode, h]
  exact Option.some.inj hsome

/-- Settles O28: of a feed's answers only the loop's fault has one of the two statuses. -/
theorem sessionFaultEffects : Obligations.SessionFaultEffects := by
  unfold Obligations.SessionFaultEffects
  intro sid s t ht hst
  rcases execSessionFeed_cases sid s with ⟨_, _, h⟩ | ⟨_, _, _, h⟩ | ⟨_, _, _, _, _, _, _, h⟩ |
    ⟨c, st, info, msgs, hc, ho, hfeed, h⟩ <;> cases h.symm.trans ht
  · simp [statusCode] at hst
  · simp [statusCode] at hst
  · simp [statusCode] at hst
  · rw [feed_eq_feedFrom] at hfeed
    have hfacts := feedFrom_faulted_facts hfeed
    refine ⟨c, hc, ho, rfl, fun hcode => ?_, fun hcode => ?_, fun chunk hfit => ?_⟩
    · obtain rfl : st = .protocolViolation := statusCode_injective hcode
      rcases hfacts with ⟨-, hv, -, hinfo⟩ | ⟨hst', -⟩
      · exact ⟨hv, by simpa using hinfo⟩
      · cases hst'
    · obtain rfl : st = .bufferOverflow := statusCode_injective hcode
      rcases hfacts with ⟨hst', -⟩ | ⟨-, hinfo⟩
      · cases hst'
      · exact hinfo
    · exact exec_sessionFeed_not_opened
        (c := { c with state := .faulted, fault := statusCode st, pend := [], acc := [] })
        (List.getElem?_set_self (ctxAt_lt hc)) hfit (by simp)

end Sys2Proof.Machine
end

section
/-! What a command writes in RESULT: the status, its information and the header fields (10_state.md R27; 60_exceptions.md R250,
R251). -/

namespace Sys2Proof.Machine

/-! The commands that can report a status (60_exceptions.md R250). -/

section
variable {i : Instr}

theorem eq_of_needMore_mem_reportable (h : .needMore ∈ reportable i) :
    i = .hdrDecode i.sid ∨ i = .frameDecode i.sid := by
  cases i <;> simp_all [reportable, Instr.sid]

theorem eq_of_sessionState_mem_reportable (h : .sessionState ∈ reportable i) :
    i = .sessionOpen i.sid ∨ i = .sessionFeed i.sid := by
  cases i <;> simp_all [reportable, Instr.sid]

theorem eq_of_malformedKey_mem_reportable (h : .malformedKey ∈ reportable i) :
    i = .keyReduce i.sid ∨ i = .legacyToken i.sid := by
  cases i <;> simp_all [reportable, Instr.sid]

theorem eq_of_sessionFault_mem_reportable (h : .protocolViolation ∈ reportable i ∨ .bufferOverflow ∈ reportable i) :
    i = .sessionFeed i.sid := by
  cases i <;> simp_all [reportable, Instr.sid]

end

/-- Settles O36: a reserved `OP` raises, and a command reports one of its own statuses. -/
theorem statusesEachCommandCanReport : Obligations.StatusesEachCommandCanReport := by
  unfold Obligations.StatusesEachCommandCanReport
  intro s t c later hp hs
  refine ⟨fun op hd => ?_, fun i hd => ?_⟩
  · cases (step_issue_reserved hp hd).symm.trans hs
    rfl
  · obtain ⟨t', ht', hst⟩ := exec_reports i (present s c later)
    cases ((step_issue_ok hp hd).trans ht').symm.trans hs
    obtain ⟨st, hmem, hcode⟩ := List.mem_map.mp hst
    rw [← hcode]
    cases st with
    | ok => exact .inl (by decide)
    | badOperand => exact .inl (by decide)
    | needMore => exact .inr (.inl ⟨rfl, eq_of_needMore_mem_reportable hmem⟩)
    | illegalCommand => exact absurd hmem (illegalCommand_not_mem_reportable i)
    | sessionState => exact .inr (.inr (.inl ⟨rfl, eq_of_sessionState_mem_reportable hmem⟩))
    | malformedKey => exact .inr (.inr (.inr (.inl ⟨rfl, eq_of_malformedKey_mem_reportable hmem⟩)))
    | protocolViolation =>
      exact .inr (.inr (.inr (.inr ⟨by decide, eq_of_sessionFault_mem_reportable (.inl hmem)⟩)))
    | bufferOverflow =>
      exact .inr (.inr (.inr (.inr ⟨by decide, eq_of_sessionFault_mem_reportable (.inr hmem)⟩)))

/-! The record a command word leaves. -/

/-- What `INFO` is under each status, for a command word `w` with the operand numbers `used` on the presented state `s`
(60_exceptions.md R251). -/
def InfoOf (w : BitVec 16) (used : List Nat) (s : State) (n : Nat) : Status → Prop
  | .ok => n = 0
  | .needMore => 1 ≤ n ∧ n < 2 ^ 64
  | .illegalCommand => n = (opField w).toNat ∧ opField w ∉ definedOps
  | .badOperand => n ∈ 0 :: used
  | .sessionState => ∃ c, ctxAt s (sidField w) = some c ∧ n = c.state.code.toNat
  | .malformedKey => n ∈ [0x11, 0x12, 0x13, 0x21, 0x22, 0x23]
  | .protocolViolation => ∃ c, ctxAt s (sidField w) = some c ∧ n + 2 ≤ c.pend.length + s.opA.length ∧
      s.opA.length ≤ s.cfg.maxOperand
  | .bufferOverflow => n = 1 ∨ n = 2

/-- The header fields are null, or those of a decoded header (40_frame_decode.md R101, R108). -/
def HeaderFields (r : Result) : Prop :=
  (r.hHlen = 0#4 ∧ r.hMask = 0#1 ∧ r.hKey = []) ∨
    ∃ b h, decodeHeader b = .ok (.header h) ∧ r.hHlen = BitVec.ofNat 4 h.hl ∧ r.hMask = h.masked ∧ r.hKey = h.key

/-- A result record as a command word can leave it. -/
def Written (w : BitVec 16) (used : List Nat) (s : State) (r : Result) : Prop :=
  (∃ st, r.status = statusCode st ∧ InfoOf w used s r.info st) ∧ HeaderFields r

section
variable {w : BitVec 16} {used : List Nat} {s : State} {r : Result}

theorem written_of_null (st : Status) (hst : r.status = statusCode st) (hinfo : InfoOf w used s r.info st)
    (hnull : r.hHlen = 0#4 ∧ r.hMask = 0#1 ∧ r.hKey = []) : Written w used s r :=
  ⟨⟨st, hst, hinfo⟩, .inl hnull⟩

theorem written_statusResult {st : Status} {n : Nat} (hinfo : InfoOf w used s n st) :
    Written w used s (statusResult st n) :=
  written_of_null st rfl hinfo ⟨rfl, rfl, rfl⟩

/-- A record of success whose header fields are null. -/
theorem written_ok (hst : r.status = 0x00#8) (hinfo : r.info = 0)
    (hnull : r.hHlen = 0#4 ∧ r.hMask = 0#1 ∧ r.hKey = []) : Written w used s r :=
  written_of_null .ok hst hinfo hnull

theorem written_header (st : Status) (hst : r.status = statusCode st) (hinfo : InfoOf w used s r.info st) {b : Bytes}
    {h : FrameHeader} (hd : decodeHeader b = .ok (.header h))
    (hr : r.hHlen = BitVec.ofNat 4 h.hl ∧ r.hMask = h.masked ∧ r.hKey = h.key) : Written w used s r :=
  ⟨⟨st, hst, hinfo⟩, .inr ⟨b, h, hd, hr⟩⟩

theorem infoOf_needMore_header {b : Bytes} {k : Nat} (hd : decodeHeader b = .ok (.needMore k)) :
    InfoOf w used s k .needMore :=
  ⟨decodeHeader_needMore_pos hd, (decodeHeader_needMore_le hd).trans_lt (by decide)⟩

theorem infoOf_needMore_payload {b : Bytes} {h : FrameHeader} (hd : decodeHeader b = .ok (.header h))
    (hshort : b.length < frameLen h) : InfoOf w used s (frameLen h - b.length) .needMore := by
  obtain ⟨-, hlen, -⟩ := decodeHeader_facts hd
  have := h.pl.isLt
  unfold frameLen at hshort ⊢
  exact ⟨by omega, by omega⟩

theorem infoOf_malformedKey {j c : Nat} (hj : j ∈ [1, 2]) (hc : c ∈ [1, 2, 3]) :
    InfoOf w used s (keyInfo j c) .malformedKey := by
  have hall : ∀ j ∈ [1, 2], ∀ c ∈ [1, 2, 3], keyInfo j c ∈ [0x11, 0x12, 0x13, 0x21, 0x22, 0x23] := by decide
  exact hall j hj c hc

end

/-- A feed that faults has passed the check of its operand's length. -/
theorem opA_le_of_sessionFault {sid : BitVec 8} {s : State} {c : Ctx} {st : Status} {info : Nat} {msgs : List Bytes}
    (hc : ctxAt s sid = some c) (hst : st ≠ .badOperand)
    (h : execSessionFeed sid s = sessionFault st info msgs sid c s) : s.opA.length ≤ s.cfg.maxOperand := by
  by_contra hlong
  have hbad : execSessionFeed sid s = answers s (errorResult 0x11#8 1) :=
    sessionCommand_of_overlong hc (overlong_cons_of_lt (Nat.not_le.mp hlong))
  have hstatus : statusCode st = statusCode .badOperand :=
    congrArg (fun t => t.result.status) (Host.Outcome.next.inj (h.symm.trans hbad))
  exact hst (statusCode_injective hstatus)

/-- Every command leaves such a record. -/
theorem exec_written {w : BitVec 16} {i : Instr} {s t : State} (hsid : i.sid = sidField w) (ht : exec i s = .next t) :
    Written w (usedOperands i) s t.result := by
  cases i with
  | hdrDecode sid =>
    rcases execHdrDecode_cases sid s with ⟨_, hk, h⟩ | ⟨_, _, hd, h⟩ | ⟨_, _, hd, h⟩ <;> cases h.symm.trans ht
    · exact written_statusResult hk
    · exact written_statusResult (infoOf_needMore_header hd)
    · exact written_header .ok rfl rfl hd ⟨rfl, rfl, rfl⟩
  | frameDecode sid =>
    rcases execFrameDecode_cases sid s with ⟨_, hk, h⟩ | ⟨_, _, hd, h⟩ | ⟨_, _, hd, hl, h⟩ | ⟨_, _, hd, _, h⟩ <;>
      cases h.symm.trans ht
    · exact written_statusResult hk
    · exact written_statusResult (infoOf_needMore_header hd)
    · exact written_header .needMore rfl (infoOf_needMore_payload hd hl) hd ⟨rfl, rfl, rfl⟩
    · exact written_header .ok rfl rfl hd ⟨rfl, rfl, rfl⟩
  | unmask sid =>
    rcases execUnmask_cases sid s with ⟨_, hk, h⟩ | ⟨_, _, h⟩ <;> cases h.symm.trans ht
    · exact written_statusResult hk
    · exact written_ok rfl rfl ⟨rfl, rfl, rfl⟩
  | sessionOpen sid =>
    obtain rfl : sid = sidField w := hsid
    rcases execSessionOpen_cases (sidField w) s with ⟨_, hk, h⟩ | ⟨c, hc, _, h⟩ | ⟨_, _, _, _, _, h⟩ <;>
      cases h.symm.trans ht
    · exact written_statusResult hk
    · exact written_statusResult ⟨c, hc, rfl⟩
    · exact written_ok rfl rfl ⟨rfl, rfl, rfl⟩
  | sessionFeed sid =>
    obtain rfl : sid = sidField w := hsid
    rcases execSessionFeed_cases (sidField w) s with ⟨_, hk, h⟩ | ⟨c, hc, _, h⟩ | ⟨_, _, _, _, _, _, _, h⟩ |
      ⟨c, st, info, msgs, hc, _, hfeed, h⟩ <;> cases h.symm.trans ht
    · exact written_statusResult hk
    · exact written_statusResult ⟨c, hc, rfl⟩
    · exact written_ok rfl rfl ⟨rfl, rfl, rfl⟩
    · rw [feed_eq_feedFrom] at hfeed
      refine written_of_null st rfl ?_ ⟨rfl, rfl, rfl⟩
      rcases feedFrom_faulted_facts hfeed with ⟨rfl, -, -, hinfo⟩ | ⟨rfl, hinfo⟩
      · exact ⟨c, hc, by simpa using hinfo, opA_le_of_sessionFault hc (by simp) h⟩
      · exact hinfo
  | sessionClose sid =>
    rcases execSessionClose_cases sid s with h | ⟨_, _, h⟩ <;> cases h.symm.trans ht
    · exact written_statusResult (List.mem_cons_self ..)
    · exact written_ok rfl rfl ⟨rfl, rfl, rfl⟩
  | sessionQuery sid =>
    rcases execSessionQuery_cases sid s with h | ⟨_, _, h⟩ <;> cases h.symm.trans ht
    · exact written_statusResult (List.mem_cons_self ..)
    · exact written_ok rfl rfl ⟨rfl, rfl, rfl⟩
  | encodeText sid =>
    rcases execEncodeText_cases sid s with ⟨_, hk, h⟩ | ⟨_, h⟩ <;> cases h.symm.trans ht
    · exact written_statusResult hk
    · exact written_ok rfl rfl ⟨rfl, rfl, rfl⟩
  | keyReduce sid =>
    rcases execKeyReduce_cases sid s with ⟨_, hk, h⟩ | ⟨_, hc, _, _, h⟩ | ⟨_, _, _, h⟩ <;> cases h.symm.trans ht
    · exact written_statusResult hk
    · exact written_statusResult (infoOf_malformedKey (by simp) hc)
    · exact written_ok rfl rfl ⟨rfl, rfl, rfl⟩
  | legacyToken sid =>
    rcases execLegacyToken_cases sid s with ⟨_, hk, h⟩ | ⟨_, _, hj, hc, _, h⟩ | ⟨_, _, _, _, _, h⟩ <;>
      cases h.symm.trans ht
    · exact written_statusResult hk
    · exact written_statusResult (infoOf_malformedKey hj hc)
    · exact written_ok rfl rfl ⟨rfl, rfl, rfl⟩
  | acceptKey sid =>
    rcases execAcceptKey_cases sid s with ⟨_, hk, h⟩ | ⟨_, h⟩ <;> cases h.symm.trans ht
    · exact written_statusResult hk
    · exact written_ok rfl rfl ⟨rfl, rfl, rfl⟩

/-- The operands the command of a word uses; none when the word is reserved. -/
def usedByWord (w : BitVec 16) : List Nat :=
  match decode w with
  | .ok i => usedOperands i
  | .error _ => []

theorem usedByWord_of_decode {w : BitVec 16} {i : Instr} (hd : decode w = .ok i) : usedByWord w = usedOperands i := by
  rw [usedByWord, hd]

theorem exists_decode_of_mem_usedByWord {w : BitVec 16} {k : Nat} (hk : k ∈ usedByWord w) :
    ∃ i, decode w = .ok i ∧ k ∈ usedOperands i := by
  cases hd : decode w with
  | ok i => exact ⟨i, rfl, usedByWord_of_decode hd ▸ hk⟩
  | error e => simp [usedByWord, hd] at hk

/-- Every command word leaves such a record, a reserved one by raising. -/
theorem step_issue_written {s t : State} {c : Command} {later : List HostAction} (hp : s.pending = .issue c :: later)
    (hs : step s = .next t) : Written c.cmd (usedByWord c.cmd) (present s c later) t.result := by
  rcases step_issue_elim hp hs with ⟨i, hd, ht⟩ | ⟨op, hd, rfl⟩
  · rw [usedByWord_of_decode hd]
    exact exec_written (decode_sid hd) ht
  · obtain ⟨rfl, hop⟩ := decode_error hd
    exact written_statusResult ⟨rfl, hop⟩

theorem usedOperands_le {i : Instr} {k : Nat} (hk : k ∈ usedOperands i) : k ≤ 3 := by
  have hall : ∀ k ∈ [1, 2, 3], k ≤ 3 := by decide
  have hsub : usedOperands i ⊆ [1, 2, 3] := by cases i <;> simp [usedOperands]
  exact hall k (hsub hk)

/-- Settles O37: the status tells which of the facts about `INFO` holds. -/
theorem infoOfEveryStatus : Obligations.InfoOfEveryStatus := by
  unfold Obligations.InfoOfEveryStatus
  intro s t c later hp hs
  rw [← sidField_toNat, ← opField_toNat]
  obtain ⟨⟨st, hst, hinfo⟩, -⟩ := step_issue_written hp hs
  have hof (st' : Status) (h : t.result.status = statusCode st') :
      InfoOf c.cmd (usedByWord c.cmd) (present s c later) t.result.info st' :=
    statusCode_injective (hst.symm.trans h) ▸ hinfo
  refine ⟨hof .ok, fun h => (hof .needMore h).1, fun h => (hof .illegalCommand h).1, fun h => ?_, hof .sessionState,
    hof .malformedKey, fun h => ?_, hof .bufferOverflow⟩
  · rcases List.mem_cons.mp (hof .badOperand h) with h0 | hused
    · exact ⟨by omega, .inl h0⟩
    · obtain ⟨i, hd, hk⟩ := exists_decode_of_mem_usedByWord hused
      exact ⟨usedOperands_le hk, .inr ⟨i, hd, hk⟩⟩
  · obtain ⟨x, hx, hlt, -⟩ := hof .protocolViolation h
    simp only [present_opA] at hlt
    exact ⟨x, hx, by omega⟩

/-- Settles O38: only the count of a NEED_MORE and the offset of a violation can be large; the first is at most a payload's
length, and the second lies in a stream of `PEND` and an operand. -/
theorem infoFitsIn64Bits : Obligations.InfoFitsIn64Bits := by
  unfold Obligations.InfoFitsIn64Bits
  intro i s t n hcap hsum hpend ht
  obtain ⟨⟨st, -, hinfo⟩, -⟩ := exec_written (decode_sid (decode_encode i)) ht
  cases st with
  | ok =>
    obtain h0 : t.result.info = 0 := hinfo
    omega
  | needMore => exact hinfo.2
  | illegalCommand =>
    obtain ⟨hop, -⟩ := hinfo
    omega
  | badOperand =>
    rcases List.mem_cons.mp hinfo with h0 | hused
    · omega
    · have := usedOperands_le hused
      omega
  | sessionState =>
    obtain ⟨c, -, hcode⟩ := hinfo
    omega
  | malformedKey =>
    have hall : ∀ k ∈ [0x11, 0x12, 0x13, 0x21, 0x22, 0x23], k < 2 ^ 64 := by decide
    exact hall _ hinfo
  | protocolViolation =>
    obtain ⟨c, hc, hlt, hfit⟩ := hinfo
    have := hpend c (List.mem_of_getElem? hc)
    omega
  | bufferOverflow =>
    obtain h12 : t.result.info = 1 ∨ t.result.info = 2 := hinfo
    omega

end Sys2Proof.Machine
end

section
/-! The invariant of the block (10_state.md R27, R31 to R35; 60_exceptions.md R250, R251). -/

namespace Sys2Proof.Machine

theorem inv_iff {s : State} :
    s.inv = true ↔ s.legalBuild = true ∧ (∀ c ∈ s.ctxs, ctxOk s.cfg c = true) ∧ resultOk s.result = true := by
  simp [State.inv, and_assoc]

theorem legalBuild_congr {s t : State} (hcfg : t.cfg = s.cfg) (hlen : t.ctxs.length = s.ctxs.length) :
    t.legalBuild = s.legalBuild := by
  rw [State.legalBuild, State.legalBuild, hcfg, hlen]

theorem resultOk_null : resultOk Result.null = true := by decide

/-- A block whose contexts are IDLE and null and whose record is null. -/
theorem inv_of_cleared {s : State} (hbuild : s.legalBuild = true) (hctxs : ∀ c ∈ s.ctxs, c = Ctx.idle)
    (hresult : s.result = Result.null) : s.inv = true := by
  refine inv_iff.mpr ⟨hbuild, fun c hc => ?_, hresult ▸ resultOk_null⟩
  rw [hctxs c hc]
  simp [ctxOk, Ctx.idle]

/-- Settles O56: after reset every context is IDLE and null, and the record is the null one. -/
theorem resetSatisfiesTheInvariant : Obligations.ResetSatisfiesTheInvariant := by
  unfold Obligations.ResetSatisfiesTheInvariant
  intro n cfg actions hlo hhi hlegal
  refine inv_of_cleared ?_ (fun c => List.eq_of_mem_replicate) rfl
  simp [State.legalBuild, State.resetOf, hlegal, hlo, hhi]

/-! The record. -/

theorem infoOk_of_infoOf {w : BitVec 16} {used : List Nat} (hused : ∀ k ∈ used, k ≤ 3) {s : State} {n : Nat}
    {st : Status} (h : InfoOf w used s n st) : infoOk (statusCode st) n = true := by
  cases st with
  | ok => exact decide_eq_true h
  | needMore => exact decide_eq_true h.1
  | illegalCommand =>
    obtain ⟨rfl, hop⟩ := h
    rw [mem_definedOps_iff_toNat] at hop
    exact Bool.and_eq_true_iff.mpr ⟨decide_eq_true (BitVec.isLt _), decide_eq_true hop⟩
  | badOperand =>
    have hle : ∀ k ∈ 0 :: used, k ≤ 3 := List.forall_mem_cons.mpr ⟨by decide, hused⟩
    exact decide_eq_true (hle n h)
  | sessionState =>
    obtain ⟨c, -, rfl⟩ := h
    cases c.state <;> rfl
  | malformedKey => exact decide_eq_true h
  | protocolViolation => rfl
  | bufferOverflow => exact decide_eq_true h

theorem headerOk_of_headerFields {r : Result} (h : HeaderFields r) :
    r.hHlen.toNat ∈ [0, 2, 4, 6, 8, 10, 14] ∧ r.hKey.length = 4 * r.hMask.toNat := by
  rcases h with ⟨hlen, hmask, hkey⟩ | ⟨b, h, hd, hlen, hmask, hkey⟩
  · rw [hlen, hmask, hkey]
    decide
  · obtain ⟨hmem, -, hk⟩ := decodeHeader_facts hd
    rw [hlen, hmask, hkey]
    have hall : ∀ n ∈ [2, 4, 6, 8, 10, 14], (BitVec.ofNat 4 n).toNat ∈ [0, 2, 4, 6, 8, 10, 14] := by decide
    exact ⟨hall _ hmem, hk⟩

theorem resultOk_of_written {w : BitVec 16} {s : State} {r : Result} (h : Written w (usedByWord w) s r) :
    resultOk r = true := by
  obtain ⟨⟨st, hst, hinfo⟩, hheader⟩ := h
  obtain ⟨hlen, hkey⟩ := headerOk_of_headerFields hheader
  have hused : ∀ k ∈ usedByWord w, k ≤ 3 := fun k hk =>
    have ⟨_, _, hk⟩ := exists_decode_of_mem_usedByWord hk
    usedOperands_le hk
  simp only [resultOk, Bool.and_eq_true, decide_eq_true_eq]
  exact ⟨⟨hst ▸ infoOk_of_infoOf hused hinfo, hlen⟩, hkey⟩

/-! The contexts. -/

theorem ctxOk_faulted {cfg : Config} {c : Ctx} (hf : c.state = .faulted)
    (hst : c.fault = statusCode .protocolViolation ∨ c.fault = statusCode .bufferOverflow) (hpend : c.pend = [])
    (hacc : c.acc = []) : ctxOk cfg c = true := by
  simpa [ctxOk, hf, hpend, hacc] using hst

/-- The ways a command changes its own context keep it sound. -/
theorem ctxOk_of_moves {i : Instr} {s : State} {c d : Ctx} (hok : ctxOk s.cfg c = true) (h : Moves i s c d) :
    ctxOk s.cfg d = true := by
  cases h with
  | opens => exact (ctxOk_opened_iff rfl).mpr ⟨rfl, capAdmits_zero _, capAdmits_zero _, rfl⟩
  | @feeds _ ho pend acc _ hfeed =>
    obtain ⟨hfault, -, hacc, -⟩ := (ctxOk_opened_iff ho).mp hok
    rw [feed_eq_feedFrom] at hfeed
    obtain ⟨hpart, hcap, hkeep⟩ := feedFrom_done_facts hfeed
    exact (ctxOk_opened_iff (c := { c with pend := pend, acc := acc }) ho).mpr ⟨hfault, hcap, hkeep hacc, hpart⟩
  | faults _ _ hfeed =>
    rcases feed_faulted_status hfeed with rfl | rfl
    · exact ctxOk_faulted rfl (.inl rfl) rfl rfl
    · exact ctxOk_faulted rfl (.inr rfl) rfl rfl
  | closes => simp [ctxOk, Ctx.idle]

theorem exec_keeps_ctxOk {i : Instr} {s t : State} (hok : ∀ c ∈ s.ctxs, ctxOk s.cfg c = true)
    (ht : exec i s = .next t) : ∀ c ∈ t.ctxs, ctxOk s.cfg c = true := by
  rcases exec_moves ht with heq | ⟨c, d, hc, hmove, hset⟩
  · rwa [heq]
  · rw [hset]
    intro x hx
    rcases List.mem_or_eq_of_mem_set hx with hx | rfl
    · exact hok x hx
    · exact ctxOk_of_moves (hok c (List.mem_of_getElem? hc)) hmove

/-- Settles O57: an idle step changes nothing, a reset clears the block, and a command keeps its own context sound and writes
a sound record. -/
theorem everyStepKeepsTheInvariant : Obligations.EveryStepKeepsTheInvariant := by
  unfold Obligations.EveryStepKeepsTheInvariant
  intro s t hinv hs
  obtain ⟨hbuild, hctxs, hresult⟩ := inv_iff.mp hinv
  obtain ⟨hcfg, hlen, -⟩ := stepKeepsParametersAndOperands s t hs
  rw [← legalBuild_congr hcfg hlen] at hbuild
  match hp : s.pending with
  | [] =>
    cases (step_idle hp).symm.trans hs
    exact hinv
  | .reset :: later =>
    cases (step_reset hp).symm.trans hs
    exact inv_of_cleared hbuild (fun c => List.eq_of_mem_replicate) rfl
  | .issue c :: later =>
    refine inv_iff.mpr ⟨hbuild, ?_, resultOk_of_written (step_issue_written hp hs)⟩
    rw [hcfg]
    rcases step_issue_elim hp hs with ⟨i, -, ht⟩ | ⟨op, -, rfl⟩
    · exact exec_keeps_ctxOk (s := present s c later) hctxs ht
    · exact hctxs

end Sys2Proof.Machine
end

section
/-! Constants and worked examples of the two derivations (44_legacy_token.md sections 3 and 4; 45_accept_key.md). -/

namespace Sys2Proof.Machine

/-- Settles O59: the constants are the model's list, and each amount is read off its group. -/
theorem md5ConstantsAndRotations : Obligations.Md5ConstantsAndRotations := by
  unfold Obligations.Md5ConstantsAndRotations
  exact ⟨by decide +kernel, by decide +kernel⟩

/-- Settles O46: the digests, computed. -/
theorem md5KnownAnswers : Obligations.Md5KnownAnswers := by
  unfold Obligations.Md5KnownAnswers
  exact ⟨by decide +kernel, by decide +kernel⟩

/-- Settles O53: the digests, computed. -/
theorem sha1KnownAnswers : Obligations.Sha1KnownAnswers := by
  unfold Obligations.Sha1KnownAnswers
  exact ⟨by decide +kernel, by decide +kernel⟩

/-! The scenario of the legacy token: the keys reduce to 6 and 12, and their packed input is hashed. -/

/-- The command of the scenario: LEGACY_TOKEN on keys "1  2" and "3   6" and the nonce 00 to 07. -/
def legacyTokenCommand : Command where
  cmd := 0x0031#16
  opA := [0x31#8, 0x20#8, 0x20#8, 0x32#8]
  opB := [0x33#8, 0x20#8, 0x20#8, 0x20#8, 0x36#8]
  opC := [0x00#8, 0x01#8, 0x02#8, 0x03#8, 0x04#8, 0x05#8, 0x06#8, 0x07#8]

/-- The command of the worked example: ACCEPT_KEY on its key. -/
def acceptKeyCommand : Command where
  cmd := 0x0040#16
  opA := "dGhlIHNhbXBsZSBub25jZQ==".toList.map fun ch => BitVec.ofNat 8 ch.toNat
  opB := []
  opC := []

/-- The block after reset, with this command pending. -/
def resetThen (c : Command) : State := { State.reset with pending := [.issue c] }

theorem step_resetThen {c : Command} {i : Instr} (hd : decode c.cmd = .ok i) :
    step (resetThen c) = exec i (present (resetThen c) c []) :=
  step_issue_ok rfl hd

theorem keyReduce_first_key : keyReduce .quotient legacyTokenCommand.opA = .ok 6 := by decide

theorem keyReduce_second_key : keyReduce .quotient legacyTokenCommand.opB = .ok 12 := by decide

theorem md5_of_scenario : be (md5 (tokenInput 6 12 legacyTokenCommand.opC)) = 0x236A0F8C2CAEC3014DA2D0042C684550 := by
  decide +kernel

/-- Settles O47: the word is LEGACY_TOKEN's, both keys reduce, and the token is the digest of the packed input. -/
theorem legacyTokenScenario : Obligations.LegacyTokenScenario := by
  unfold Obligations.LegacyTokenScenario
  have hd : decode legacyTokenCommand.cmd = .ok (.legacyToken 0x00#8) := decode_encode (.legacyToken 0x00#8)
  have hexec := exec_legacyToken_of_ok (s := present (resetThen legacyTokenCommand) legacyTokenCommand [])
    (by decide) rfl keyReduce_first_key keyReduce_second_key
  exact ⟨_, (step_resetThen hd).trans hexec, rfl, md5_of_scenario⟩

/-- The digest of the worked example's key and the GUID, in base64. -/
theorem base64_sha1_of_example :
    base64 (sha1 (acceptKeyCommand.opA ++ guid)) =
      "s3pPLMBiTxaQ9kYGzzhZRbK+xOo=".toList.map fun ch => BitVec.ofNat 8 ch.toNat := by
  decide +kernel

/-- Settles O55: the word is ACCEPT_KEY's, and the accept key is the digest in base64. -/
theorem acceptKeyWorkedExample : Obligations.AcceptKeyWorkedExample := by
  unfold Obligations.AcceptKeyWorkedExample
  have hd : decode acceptKeyCommand.cmd = .ok (.acceptKey 0x00#8) := decode_encode (.acceptKey 0x00#8)
  have hexec := exec_acceptKey_ok (s := present (resetThen acceptKeyCommand) acceptKeyCommand [])
    (by decide) (by decide)
  rw [present_opA, base64_sha1_of_example] at hexec
  exact ⟨_, (step_resetThen hd).trans hexec, rfl, rfl⟩

end Sys2Proof.Machine
end
